-- ==== Sys2Proof/Word.lean ====
section
/-! DEFINITION. The word types of the engine (R12, R13): bytes, byte strings, 16-bit and 24-bit words, and the 6-byte MAC. -/

namespace Sys2Proof

/-- A byte, 8 bits (R12). -/
abbrev Byte := BitVec 8

/-- A UUID or a 16-bit result, 2 bytes (R12, R63). -/
abbrev U16 := BitVec 16

/-- The CRC register and the `poly` and `init` operands, 24 bits (R12, R92). -/
abbrev U24 := BitVec 24

/-- A byte string, index 0 first (R13). -/
abbrev Bytes := List Byte

/-- A MAC address: exactly 6 bytes, `b0` at index 0 (R12, R32). -/
structure Mac where
  b0 : Byte
  b1 : Byte
  b2 : Byte
  b3 : Byte
  b4 : Byte
  b5 : Byte
  deriving DecidableEq, Repr, Inhabited

end Sys2Proof
end

