-- ==== Sys2Proof/Syntax.lean ====
section
/-! DEFINITION. The commands of the engine: one constructor for each row of the opcode map R95, with the operands of its
format (R91). The length bytes `N`, `K`, `Nj` of a frame are the lengths of the lists. -/

namespace Sys2Proof

/-- A command with its operands (R95). -/
inductive Instr where
  /-- REVB `A`: the byte to reverse (R131). -/
  | revb (a : Byte)
  /-- REVBUF `D` (R133). -/
  | revbuf (d : Bytes)
  /-- CHUNK `A`, `D`: type code, data (R136). -/
  | chunk (a : Byte) (d : Bytes)
  /-- WHITEN `A`, `D`: coefficient, data (R152). -/
  | whiten (a : Byte) (d : Bytes)
  /-- WHITENCH `D` (R154). -/
  | whitench (d : Bytes)
  /-- CRC24 `poly`, `init`, `D` (R172). -/
  | crc24 (poly init : U24) (d : Bytes)
  /-- SETMAC `D` (R190). -/
  | setmac (d : Bytes)
  /-- SETNAME `D` (R193). -/
  | setname (d : Bytes)
  /-- CLRNAME (R196). -/
  | clrname
  /-- SETPWR `A`: 0 off, 1 on, 2..255 reserved (R198). -/
  | setpwr (a : Byte)
  /-- GETCFG (R201). -/
  | getcfg
  /-- BEGIN (R220). -/
  | beginRadio
  /-- HOP (R222). -/
  | hop
  /-- LENAVAIL `A`: hypothetical chunk size (R226). -/
  | lenavail (a : Byte)
  /-- ASSEMBLE `A`, `D`: data type, data (R240). -/
  | assemble (a : Byte) (d : Bytes)
  /-- ASMSEQ `seq` (R242). -/
  | asmseq (seq : List Bytes)
  /-- ADV `A`, `D`: data type, data (R244). -/
  | adv (a : Byte) (d : Bytes)
  /-- ADVSEQ `seq` (R246). -/
  | advseq (seq : List Bytes)
  /-- POLL (R280). -/
  | poll
  /-- READ (R283). -/
  | read
  /-- DECODE `D` (R285). -/
  | decode (d : Bytes)
  deriving DecidableEq, Repr

/-- The mnemonic of a command, as the opcode map R95 spells it: which command a frame is, its operands apart. -/
def Instr.mnemonic : Instr → String
  | .revb _ => "REVB"
  | .revbuf _ => "REVBUF"
  | .chunk _ _ => "CHUNK"
  | .whiten _ _ => "WHITEN"
  | .whitench _ => "WHITENCH"
  | .crc24 _ _ _ => "CRC24"
  | .setmac _ => "SETMAC"
  | .setname _ => "SETNAME"
  | .clrname => "CLRNAME"
  | .setpwr _ => "SETPWR"
  | .getcfg => "GETCFG"
  | .beginRadio => "BEGIN"
  | .hop => "HOP"
  | .lenavail _ => "LENAVAIL"
  | .assemble _ _ => "ASSEMBLE"
  | .asmseq _ => "ASMSEQ"
  | .adv _ _ => "ADV"
  | .advseq _ => "ADVSEQ"
  | .poll => "POLL"
  | .read => "READ"
  | .decode _ => "DECODE"

end Sys2Proof
end

