-- ==== Sys2Proof/WellFormed.lean ====
section
/-! DEFINITION. Which commands a frame can spell: every length fits its one-byte field (R12, R91, R93). -/

namespace Sys2Proof

/-- A buffer whose length fits the length byte `N` (R91, D2). -/
def bufferFits (d : Bytes) : Bool := decide (d.length ≤ 255)

/-- A sequence whose count fits `K` and each of whose buffers fits its `Nj` (R93, D2). -/
def sequenceFits (seq : List Bytes) : Bool := decide (seq.length ≤ 255) && seq.all bufferFits

/-- A command that some frame spells (R91). Reserved operand values (R98) are well formed: the command answers
E_RESERVED. -/
def Instr.wellFormed : Instr → Bool
  | .revb _ => true
  | .revbuf d => bufferFits d
  | .chunk _ d => bufferFits d
  | .whiten _ d => bufferFits d
  | .whitench d => bufferFits d
  | .crc24 _ _ d => bufferFits d
  | .setmac d => bufferFits d
  | .setname d => bufferFits d
  | .clrname => true
  | .setpwr _ => true
  | .getcfg => true
  | .beginRadio => true
  | .hop => true
  | .lenavail _ => true
  | .assemble _ d => bufferFits d
  | .asmseq seq => sequenceFits seq
  | .adv _ d => bufferFits d
  | .advseq seq => sequenceFits seq
  | .poll => true
  | .read => true
  | .decode d => bufferFits d

end Sys2Proof
end

