-- ==== Sys2Proof/Decode.lean ====
section
/-! DEFINITION. From a command frame to a command, total, and back: the formats of R91–R93, the opcode map of R95, the
frame checks of R94, and the encoder. A frame the decoder refuses is refused by name (R321, R323). -/

namespace Sys2Proof

/-- Why a frame spells no command (R94). -/
inductive DecodeError where
  /-- `len(F) = 0` (R90): answered E_MALFORMED. -/
  | emptyFrame
  /-- `F[0]` is not in the opcode map (R97): answered E_ILLEGAL. -/
  | illegalOpcode (op : Byte)
  /-- `F[0]` is listed and `len(F)` does not match its format, or the FS walk fails (R94): answered E_MALFORMED. -/
  | lengthMismatch (op : Byte)
  deriving DecidableEq, Repr

/-- One of the six formats of R91, with the command its operands make. -/
inductive Format where
  /-- `OP`. -/
  | f0 (i : Instr)
  /-- `OP, A`. -/
  | f1 (k : Byte → Instr)
  /-- `OP, N, D`. -/
  | fb (k : Bytes → Instr)
  /-- `OP, A, N, D`. -/
  | fab (k : Byte → Bytes → Instr)
  /-- `OP, P0, P1, P2, I0, I1, I2, N, D`. -/
  | fc (k : U24 → U24 → Bytes → Instr)
  /-- `OP, K, N1, D1, ..., NK, DK`. -/
  | fs (k : List Bytes → Instr)

/-- The opcode map R95: all 8 bits of `F[0]` are compared (R96). -/
def opcodeRow (op : Byte) : Option Format :=
  match op.toNat with
  | 0x01 => some (.f1 .revb)
  | 0x02 => some (.fb .revbuf)
  | 0x03 => some (.fab .chunk)
  | 0x08 => some (.fab .whiten)
  | 0x09 => some (.fb .whitench)
  | 0x0C => some (.fc .crc24)
  | 0x10 => some (.fb .setmac)
  | 0x11 => some (.fb .setname)
  | 0x12 => some (.f0 .clrname)
  | 0x13 => some (.f1 .setpwr)
  | 0x14 => some (.f0 .getcfg)
  | 0x20 => some (.f0 .beginRadio)
  | 0x21 => some (.f0 .hop)
  | 0x22 => some (.f1 .lenavail)
  | 0x23 => some (.fab .assemble)
  | 0x24 => some (.fs .asmseq)
  | 0x25 => some (.fab .adv)
  | 0x26 => some (.fs .advseq)
  | 0x30 => some (.f0 .poll)
  | 0x31 => some (.f0 .read)
  | 0x32 => some (.fb .decode)
  | _ => none

/-- A u24 operand from its three bytes, low byte first (R92). -/
def u24le (b0 b1 b2 : Byte) : U24 := b2 ++ b1 ++ b0

/-- The three bytes of a u24 operand, low byte first (R92). -/
def bytesOfU24 (v : U24) : Bytes := [v.extractLsb' 0 8, v.extractLsb' 8 8, v.extractLsb' 16 8]

/-- The walk of R93 over the bytes after `K`: `K` entries `Nj, Dj`, and no byte left over. -/
def seqWalk : Nat → Bytes → Option (List Bytes)
  | 0, [] => some []
  | 0, _ :: _ => none
  | _ + 1, [] => none
  | k + 1, n :: r =>
    if n.toNat ≤ r.length then (seqWalk k (r.drop n.toNat)).map (r.take n.toNat :: ·) else none

/-- The operands of a frame, from the bytes after the opcode (R92, R93); none where the length does not match. -/
def Format.operands : Format → Bytes → Option Instr
  | .f0 i, [] => some i
  | .f1 k, [a] => some (k a)
  | .fb k, n :: d => if d.length = n.toNat then some (k d) else none
  | .fab k, a :: n :: d => if d.length = n.toNat then some (k a d) else none
  | .fc k, p0 :: p1 :: p2 :: i0 :: i1 :: i2 :: n :: d =>
    if d.length = n.toNat then some (k (u24le p0 p1 p2) (u24le i0 i1 i2) d) else none
  | .fs k, n :: r => (seqWalk n.toNat r).map k
  | _, _ => none

/-- The command a delivered frame spells, or why it spells none (R94, R96, priority R333). -/
def decodeFrame : Bytes → Except DecodeError Instr
  | [] => .error .emptyFrame
  | op :: r =>
    match opcodeRow op with
    | none => .error (.illegalOpcode op)
    | some fmt =>
      match fmt.operands r with
      | none => .error (.lengthMismatch op)
      | some i => .ok i

/-- A buffer behind its length byte (R91). -/
def encodeBuffer (d : Bytes) : Bytes := BitVec.ofNat 8 d.length :: d

/-- The entries of a sequence behind its count byte `K` (R91, R93). -/
def encodeSequence (seq : List Bytes) : Bytes := BitVec.ofNat 8 seq.length :: seq.flatMap encodeBuffer

/-- The frame of a command, laid out as R91 and R95 say. -/
def encode : Instr → Bytes
  | .revb a => [0x01#8, a]
  | .revbuf d => 0x02#8 :: encodeBuffer d
  | .chunk a d => 0x03#8 :: a :: encodeBuffer d
  | .whiten a d => 0x08#8 :: a :: encodeBuffer d
  | .whitench d => 0x09#8 :: encodeBuffer d
  | .crc24 p i d => 0x0C#8 :: (bytesOfU24 p ++ bytesOfU24 i ++ encodeBuffer d)
  | .setmac d => 0x10#8 :: encodeBuffer d
  | .setname d => 0x11#8 :: encodeBuffer d
  | .clrname => [0x12#8]
  | .setpwr a => [0x13#8, a]
  | .getcfg => [0x14#8]
  | .beginRadio => [0x20#8]
  | .hop => [0x21#8]
  | .lenavail a => [0x22#8, a]
  | .assemble a d => 0x23#8 :: a :: encodeBuffer d
  | .asmseq seq => 0x24#8 :: encodeSequence seq
  | .adv a d => 0x25#8 :: a :: encodeBuffer d
  | .advseq seq => 0x26#8 :: encodeSequence seq
  | .poll => [0x30#8]
  | .read => [0x31#8]
  | .decode d => 0x32#8 :: encodeBuffer d

/-- The bytes `K` entries of a sequence take, from their length bytes; a byte not there counts as 0 (R93, R99). -/
def seqExtent : Nat → Bytes → Nat
  | 0, _ => 0
  | k + 1, r => 1 + (r.headD 0#8).toNat + seqExtent k (r.drop (1 + (r.headD 0#8).toNat))

/-- The operand bytes of a frame, from its header and length bytes alone (R99); a byte not there counts as 0. -/
def Format.extent : Format → Bytes → Nat
  | .f0 _, _ => 0
  | .f1 _, _ => 1
  | .fb _, r => 1 + (r.getD 0 0#8).toNat
  | .fab _, r => 2 + (r.getD 1 0#8).toNat
  | .fc _, r => 7 + (r.getD 6 0#8).toNat
  | .fs _, r => 1 + seqExtent (r.getD 0 0#8).toNat (r.drop 1)

/-- Where the frame at the start of a byte stream ends, found from its header and length bytes (R99); none where the
stream is empty or starts with an illegal opcode. -/
def frameEnd : Bytes → Option Nat
  | [] => none
  | op :: r => (opcodeRow op).map (fun fmt => 1 + fmt.extent r)

/-- The first `k` bytes of a table word: bit 0 of `w` is the least significant bit of the first byte. -/
def tableBytes : Nat → Nat → Bytes
  | 0, _ => []
  | k + 1, w => BitVec.ofNat 8 w :: tableBytes k (w / 256)

/-- The frame of a table word: its bytes, followed by the zero bytes its header says are still to come (log 4). -/
def tableFrame (nbits w : Nat) : Bytes :=
  let bs := tableBytes (nbits / 8) w
  bs ++ List.replicate ((frameEnd bs).getD 0 - bs.length) 0#8

/-- The command the decoder reads from a table word of `nbits` bits, the operand bytes above them zero. -/
def decodeTableWord (nbits w : Nat) : Option Instr :=
  match decodeFrame (tableFrame nbits w) with
  | .ok i => some i
  | .error _ => none

end Sys2Proof
end

