-- ==== Sys2Proof/Config.lean ====
section
/-! DEFINITION. What the spec leaves open: the free draws of R16 and R65, and the OPEN parameters of R11. Every constant
here is opaque, so that no proof sees a value of it. The fixed constants of R10 stand in Machine/Params.lean. -/

namespace Sys2Proof

/-- The `n`-th free draw, where a Bool is asked for: the answers of `Radio.begin`, `Radio.write` and `Radio.available`
(R16, R65; log 1). -/
opaque Config.freeBool : Nat → Bool

/-- The `n`-th free draw, where a u8 is asked for: `Radio.get_pa_level` and `Radio.get_payload_size` (R16, R65; log 1). -/
opaque Config.freeByte : Nat → Byte

/-- The `n`-th free draw, where a byte string is asked for: `Radio.read`, whose answer may have any length (R65; log 1). -/
opaque Config.freeBytes : Nat → Bytes

/-- The `n`-th free draw, where 6 bytes are asked for: `Draw6()` (R16, D35; log 1). -/
opaque Config.freeMac : Nat → Mac

/-- `P_PA_DBM`: the radio's `pa_level` answer to the dBm byte of the power chunk, an s8 (R11, R233, D14; log 7). -/
opaque Config.paDbm : Byte → Byte

/-- Which of the 65535 UUIDs other than 0x180F `P_UUID_TEMPERATURE` is, in rising order: an open index (R11, D18;
log 7). -/
opaque Config.temperatureIndex : Fin 65535

/-- Which of the 65534 UUIDs other than 0x180F and `P_UUID_TEMPERATURE` is `P_UUID_URL`, in rising order: an open index
(R11, D18; log 7). -/
opaque Config.urlIndex : Fin 65534

/-- `P_RETRY_DELAY`: the `delay` argument BEGIN passes to `retries(delay, 0)` (R11, R220, D15; log 7). -/
opaque Config.retryDelay : Int

/-- `P_RX_PIPE`: the `pipe` argument BEGIN passes to `open_rx_pipe` (R11, R220, D15; log 7). -/
opaque Config.rxPipe : Int

end Sys2Proof
end

