-- ==== Sys2Proof/Machine/Params.lean ====
section
/-! DEFINITION. The hardwired constants of R10, the two parameters of R11 whose value the spec takes, and the two service
UUIDs of R11, open but distinct. -/

namespace Sys2Proof.Machine

/-- `HDR0`, PDU byte 0 (R10). -/
def hdr0 : Byte := 0x42#8

/-- `FLAGS_TYPE` (R10). -/
def flagsType : Byte := 0x01#8

/-- `FLAGS_DATA` (R10). -/
def flagsData : Byte := 0x05#8

/-- `POWER_TYPE` (R10). -/
def powerType : Byte := 0x0A#8

/-- `NAME_TYPE` (R10). -/
def nameType : Byte := 0x08#8

/-- `SVC_TYPE` (R10). -/
def svcType : Byte := 0x16#8

/-- `FREQ`: the physical channel of an index (R10, R38). -/
def freq (i : Fin 3) : Int := [2, 26, 80].getD i.val 0

/-- `COEF_BASE` (R10). -/
def coefBase : Nat := 37

/-- `COEF_OR` (R10). -/
def coefOr : Byte := 0x40#8

/-- `WHITEN_TAP` (R10). -/
def whitenTap : Byte := 0x88#8

/-- `CRC_POLY_DEFAULT` (R10, R171). -/
def crcPolyDefault : U24 := 0x00065B#24

/-- `CRC_INIT_DEFAULT` (R10, R171). -/
def crcInitDefault : U24 := 0x555555#24

/-- `BUDGET_BASE` (R10). -/
def budgetBase : Nat := 18

/-- `POWER_CHUNK_LEN` (R10). -/
def powerChunkLen : Nat := 3

/-- `NAME_LIMIT_BASE` (R10). -/
def nameLimitBase : Nat := 18

/-- `POWER_ENABLE_NAME_LIMIT` (R10, C2). -/
def powerEnableNameLimit : Nat := 16

/-- `RX_LEN_LIMIT` (R10). -/
def rxLenLimit : Nat := 30

/-- `PIPE_ADDR` (R10). -/
def pipeAddr : Bytes := [0x71#8, 0x91#8, 0x7D#8, 0x6B#8, 0x00#8]

/-- `ADDR_WIDTH` (R10). -/
def addrWidth : Int := 4

/-- `BATTERY_UUID` (R10). -/
def batteryUuid : U16 := 0x180F#16

/-- `PARSE_START` (R10). -/
def parseStart : Nat := 8

/-- `P_LEN_COUNTS_CRC`: the PDU length byte counts the 3 CRC bytes (R11, D9, C1; log 6). -/
def lenCountsCrc : Bool := true

/-- `P_EMPTY_SINGLE_CHUNKED`: a single empty buffer is still chunked (R11, D13; log 6). -/
def emptySingleChunked : Bool := true

/-- The `n`-th natural number other than `a`. -/
def skipping (a n : Nat) : Nat := if n < a then n else n + 1

/-- The `i`-th UUID other than 0x180F. -/
def temperatureUuidOf (i : Fin 65535) : U16 := BitVec.ofNat 16 (skipping 0x180F i.val)

/-- The `i`-th UUID other than 0x180F and `t`. -/
def urlUuidOf (t : U16) (i : Fin 65534) : U16 :=
  BitVec.ofNat 16 (skipping (max 0x180F t.toNat) (skipping (min 0x180F t.toNat) i.val))

/-- `P_UUID_TEMPERATURE` (R11, R276), distinct from 0x180F as D18 assumes and open beyond that (log 7). -/
def uuidTemperature : U16 := temperatureUuidOf Config.temperatureIndex

/-- `P_UUID_URL` (R11, R276), distinct from 0x180F and from `P_UUID_TEMPERATURE` as D18 assumes and open beyond that
(log 7). -/
def uuidUrl : U16 := urlUuidOf uuidTemperature Config.urlIndex

end Sys2Proof.Machine
end

