-- ==== Sys2Proof/Machine/Bits.lean ====
section
/-! DEFINITION. The pure functions of the permuter, the whitening LFSR and the CRC accumulator (R130, R132, R135, R150,
R153, R170), and the byte orders of R63. -/

namespace Sys2Proof.Machine

/-- The 6 bytes of a MAC in index order (R63). -/
def macBytes (m : Mac) : Bytes := [m.b0, m.b1, m.b2, m.b3, m.b4, m.b5]

/-- The MAC whose bytes stand at index `i` of `g`. Every caller has `i + 6 ≤ len(g)` (log 12). -/
def macAt (g : Bytes) (i : Nat) : Mac :=
  ⟨g.getD i 0#8, g.getD (i + 1) 0#8, g.getD (i + 2) 0#8, g.getD (i + 3) 0#8, g.getD (i + 4) 0#8, g.getD (i + 5) 0#8⟩

/-- A 16-bit value as two bytes, low byte first (R63). -/
def le16 (v : U16) : Bytes := [v.extractLsb' 0 8, v.extractLsb' 8 8]

/-- `b0 | b1 << 8` (R63, R274). -/
def u16le (b0 b1 : Byte) : U16 := b1 ++ b0

/-- `rev8`: bit `7 - i` of the result is bit `i` of `b` (R130). -/
def rev8 (b : Byte) : Byte := b.reverse

/-- `revbuf`: `rev8` of every byte, in place (R132). -/
def revbuf (d : Bytes) : Bytes := d.map rev8

/-- `chunk(D, t) = [len(D) + 1, t] ++ D`, for `len(D) ≤ 254` (R135). -/
def chunk (d : Bytes) (t : Byte) : Bytes := BitVec.ofNat 8 (d.length + 1) :: t :: d

/-- `coef(i) = (i + 37) | 0x40` (R37, R153). -/
def coef (i : Fin 3) : Byte := BitVec.ofNat 8 (i.val + coefBase) ||| coefOr

/-- The registers of `whiten` inside one byte (R39, R150). -/
structure Lfsr where
  w : Byte
  res : Byte
  mask : Byte
  deriving DecidableEq, Repr

/-- One bit-step of `whiten` (R150). -/
def whitenBit (x : Lfsr) : Lfsr :=
  { w := (if x.w.getLsbD 0 then x.w ^^^ whitenTap else x.w) >>> 1
    res := if x.w.getLsbD 0 then x.res ^^^ x.mask else x.res
    mask := x.mask <<< 1 }

/-- The registers after the 8 bit-steps of a byte that starts at `w` (R150). -/
def whitenByte (w : Byte) : Lfsr := whitenBit^[8] { w := w, res := 0x00#8, mask := 0x01#8 }

/-- `whiten(D, c)`: the register runs on from byte to byte (R150). -/
def whiten : Bytes → Byte → Bytes
  | [], _ => []
  | b :: d, c => (b ^^^ (whitenByte c).res) :: whiten d (whitenByte c).w

/-- One bit-step of the CRC register, kept 24 bits wide (R170). -/
def crcBit (poly crc : U24) : U24 := if crc.getLsbD 23 then (crc <<< 1) ^^^ poly else crc <<< 1

/-- The CRC register after one data byte (R170). -/
def crcByte (poly crc : U24) (b : Byte) : U24 := (crcBit poly)^[8] (crc ^^^ ((rev8 b).setWidth 24 <<< 16))

/-- The CRC register after all of `d` (R170). -/
def crcRegister (d : Bytes) (poly init : U24) : U24 := d.foldl (crcByte poly) init

/-- `crc24(D, poly, init)`: the register's bytes from the top, each bit-reversed (R63, R170). -/
def crc24 (d : Bytes) (poly init : U24) : Bytes :=
  [rev8 ((crcRegister d poly init).extractLsb' 16 8), rev8 ((crcRegister d poly init).extractLsb' 8 8),
    rev8 ((crcRegister d poly init).extractLsb' 0 8)]

/-- `crc24` with the BLE coefficients (R171). -/
def crcBle (d : Bytes) : Bytes := crc24 d crcPolyDefault crcInitDefault

end Sys2Proof.Machine
end

