-- ==== Sys2Proof/Machine/Flags.lean ====
section
/-! DEFINITION. The engine has no condition codes (R43). What an outcome is told by is the status byte of a response: the
codes of R320 and the error response of R322. -/

namespace Sys2Proof.Machine

/-- The errors a command or the decoder raises (R320). -/
inductive Err where
  /-- E_ILLEGAL (R321). -/
  | illegal
  /-- E_MALFORMED (R323). -/
  | malformed
  /-- E_RESERVED (R324). -/
  | reserved
  /-- E_CHUNK (R326). -/
  | chunk
  /-- E_BUDGET with the overflow amount (R327). -/
  | budget (amount : Nat)
  /-- E_NAME (R325). -/
  | name
  /-- E_NOROOM (R328). -/
  | noroom
  /-- E_RADIO_INIT (R329). -/
  | radioInit
  /-- E_RADIO_WRITE (R331). -/
  | radioWrite
  deriving DecidableEq, Repr

/-- The status byte OK (R320). -/
def statusOk : Byte := 0x00#8

/-- The status byte of an error (R320). -/
def errCode : Err → Byte
  | .illegal => 0x01#8
  | .malformed => 0x02#8
  | .reserved => 0x03#8
  | .chunk => 0x10#8
  | .budget _ => 0x11#8
  | .name => 0x12#8
  | .noroom => 0x13#8
  | .radioInit => 0x20#8
  | .radioWrite => 0x21#8

/-- The response of an error: its code, and for E_BUDGET the amount as u16, low byte first (R322). -/
def errResponse (e : Err) : Bytes :=
  errCode e :: (match e with
    | .budget a => le16 (BitVec.ofNat 16 a)
    | _ => [])

/-- The error a refused frame is answered with (R321, R323). -/
def frameErr : DecodeError → Err
  | .emptyFrame => .malformed
  | .illegalOpcode _ => .illegal
  | .lengthMismatch _ => .malformed

end Sys2Proof.Machine
end

