-- ==== Sys2Proof/Machine/State.lean ====
section
/-! DEFINITION. The state of the engine and of its channels, as plain data, and its value at reset (R30–R44, R61, R67, R360). -/

namespace Sys2Proof.Machine

/-- The name of a record (R40). -/
inductive RecordName where
  /-- No name chunk. -/
  | absent
  /-- Name bytes that passed the UTF-8 check (R275). -/
  | text (b : Bytes)
  /-- Name bytes that did not. -/
  | raw (b : Bytes)
  deriving DecidableEq, Repr

/-- The kind of a recognised service-data chunk (R40, R276). -/
inductive SvcKind where
  | battery
  | temperature
  | url
  deriving DecidableEq, Repr

/-- One item of a record's data (R40). -/
inductive Item where
  /-- A raw fragment. -/
  | raw (b : Bytes)
  /-- A recognised service-data chunk: its UUID, its kind, the bytes after the UUID. -/
  | svc (uuid : U16) (kind : SvcKind) (body : Bytes)
  deriving DecidableEq, Repr

/-- A record: the decoded form of a validated received PDU (R40). `power` is an s8, in dBm. -/
structure Record where
  mac : Mac
  name : RecordName
  power : Option Byte
  data : List Item
  deriving DecidableEq, Repr

/-- One transaction of the radio port, with its argument and its answer (R64, R67). -/
inductive RadioEvent where
  | beginRadio (answer : Bool)
  | setCrcLength (n : Int)
  | setAutoAck (b : Bool)
  | setDynamicPayloads (b : Bool)
  | setRetries (delay count : Int)
  | setAddressWidth (n : Int)
  | openTxPipe (address : Bytes)
  | openRxPipe (pipe : Int) (address : Bytes)
  | setChannel (n : Int)
  | setPower (b : Bool)
  | setListen (b : Bool)
  | getPaLevel (answer : Byte)
  | write (frame : Bytes) (answer : Bool)
  | available (answer : Bool)
  | getPayloadSize (answer : Byte)
  | read (n : Byte) (answer : Bytes)
  deriving DecidableEq, Repr

/-- The engine's architectural state `S` (R30). `name` is `NAME_PRESENT` and `NAME` together: `none` is
`NAME_PRESENT = 0` (R33; log 9). -/
structure Engine where
  /-- `S.CHAN_IDX` (R31). -/
  chanIdx : Fin 3
  /-- `S.MAC` (R32). -/
  mac : Mac
  /-- `S.NAME_PRESENT`, `S.NAME` (R33). -/
  name : Option Bytes
  /-- `S.SHOW_POWER` (R34). -/
  showPower : Bool
  /-- `S.CONFIGURED` (R35). -/
  configured : Bool
  /-- `S.RXQ`, oldest record first (R36). -/
  rxq : List Record
  deriving DecidableEq, Repr

/-- Answers of the outside world that stand ready, one queue for each type of free draw, oldest first (R16, R65; log 1):
`bools` for `begin`, `write` and `available`; `bytes` for `get_pa_level` and `get_payload_size`; `bufs` for `read`;
`macs` for `Draw6()`. -/
structure Feed where
  bools : List Bool
  bytes : List Byte
  bufs : List Bytes
  macs : List Mac
  deriving DecidableEq, Repr

/-- The machine: the engine, the host's side of the channels, and the supply of free draws. -/
structure State where
  /-- The engine state `S` (R30). -/
  eng : Engine
  /-- The host program counter: the index of the next command frame (R42). -/
  hpc : Nat
  /-- The host's command frames from index `hpc` on, the next one first (R42, R61; log 3). -/
  cmdIn : List Bytes
  /-- The responses since reset, oldest first (R61, R67). -/
  responses : List Bytes
  /-- The radio event log, oldest first (R67). -/
  radioLog : List RadioEvent
  /-- The model's own field: answers that stand ready (log 1). -/
  feed : Feed
  /-- The model's own field: how many free draws were taken (log 1). -/
  draws : Nat
  deriving DecidableEq, Repr

/-- Why the machine stops. No command stops it. -/
inductive Fault where
  /-- Raised by `step` alone, when no command frame is pending: the engine "has no step of its own while no command is
  pending" (R9; log 3). Safe: nothing is claimed of a step that does not happen. -/
  | noCommandPending
  deriving DecidableEq, Repr

/-- Why the model gives an instruction no meaning. -/
inductive Refusal where
  /-- Raised by an arm of `exec` whose instruction has no meaning yet; no arm does. Safe. -/
  | notModelled (mnemonic : String)
  deriving DecidableEq, Repr

/-- The machine right after reset (R44, R360). The MAC is `Draw6()`, draw number 0, a value nothing fixes. The channels
and the supply of answers are empty (log 5). -/
def State.reset : State where
  eng :=
    { chanIdx := 0, mac := Config.freeMac 0, name := none, showPower := false, configured := false, rxq := [] }
  hpc := 0
  cmdIn := []
  responses := []
  radioLog := []
  feed := { bools := [], bytes := [], bufs := [], macs := [] }
  draws := 1

end Sys2Proof.Machine
end

