-- ==== Sys2Proof/Machine/Ops.lean ====
section
/-! DEFINITION. The operations every command is made of: answering, raising an error, the free draws, the transactions of
the radio port (R64), and the writes of the engine's fields. There is no memory to read or write (R60). -/

namespace Sys2Proof.Machine

/-! ### Responses and errors -/

/-- `resp <- r`: the response leaves and the host moves to its next frame (R15, R42, R100). -/
def respond (r : Bytes) (s : State) : State := { s with responses := s.responses ++ [r], hpc := s.hpc + 1 }

/-- A response with status OK and the command's result (R100). -/
def respondOk (r : Bytes) (s : State) : State := respond (statusOk :: r) s

/-- `raise E`: the command ends with the error response (R15, R322). There is no vector, no saved state and no return
(R334, R335). What the command did to `s` before it raised stays (R331). -/
def raiseErr (e : Err) (s : State) : State := respond (errResponse e) s

/-- The pending frame leaves the command channel: a frame is consumed and not stored (R75). -/
def dropFrame (s : State) : State := { s with cmdIn := s.cmdIn.tail }

/-! ### Writes of the engine's fields (R31–R36) -/

/-- `S.CHAN_IDX <- i`. -/
def setChanIdx (i : Fin 3) (s : State) : State := { s with eng := { s.eng with chanIdx := i } }

/-- `S.MAC <- m`. -/
def setMac (m : Mac) (s : State) : State := { s with eng := { s.eng with mac := m } }

/-- `S.NAME_PRESENT`, `S.NAME`. -/
def setName (n : Option Bytes) (s : State) : State := { s with eng := { s.eng with name := n } }

/-- `S.SHOW_POWER <- b`. -/
def setShowPower (b : Bool) (s : State) : State := { s with eng := { s.eng with showPower := b } }

/-- `S.CONFIGURED <- b`. -/
def setConfigured (b : Bool) (s : State) : State := { s with eng := { s.eng with configured := b } }

/-- `S.RXQ <- q`. -/
def setRxq (q : List Record) (s : State) : State := { s with eng := { s.eng with rxq := q } }

/-- `S.NAME_LEN`, 0 when no name is present (R33). -/
def nameLen (e : Engine) : Nat := (e.name.getD []).length

/-- `3 · S.SHOW_POWER` (R227). -/
def powerTerm (e : Engine) : Nat := if e.showPower then powerChunkLen else 0

/-! ### Free draws (R16, R65; log 1) -/

/-- The Bool the next draw yields: the first answer that stands ready, else a free value. -/
def nextBool (s : State) : Bool := s.feed.bools.headD (Config.freeBool s.draws)

/-- The u8 the next draw yields. -/
def nextByte (s : State) : Byte := s.feed.bytes.headD (Config.freeByte s.draws)

/-- The byte string the next draw yields. -/
def nextBytes (s : State) : Bytes := s.feed.bufs.headD (Config.freeBytes s.draws)

/-- The 6 bytes the next `Draw6()` yields. -/
def nextMac (s : State) : Mac := s.feed.macs.headD (Config.freeMac s.draws)

/-- A Bool is drawn. -/
def takeBool (s : State) : State :=
  { s with feed := { s.feed with bools := s.feed.bools.tail }, draws := s.draws + 1 }

/-- A u8 is drawn. -/
def takeByte (s : State) : State :=
  { s with feed := { s.feed with bytes := s.feed.bytes.tail }, draws := s.draws + 1 }

/-- A byte string is drawn. -/
def takeBytes (s : State) : State :=
  { s with feed := { s.feed with bufs := s.feed.bufs.tail }, draws := s.draws + 1 }

/-- `Draw6()` is drawn. -/
def takeMac (s : State) : State :=
  { s with feed := { s.feed with macs := s.feed.macs.tail }, draws := s.draws + 1 }

/-! ### The radio port (R64, R67) -/

/-- Transactions are appended to the radio event log (R67). -/
def logEvents (es : List RadioEvent) (s : State) : State := { s with radioLog := s.radioLog ++ es }

/-- `Radio.begin()`, after it answered `nextBool s`. -/
def radioBegin (s : State) : State := logEvents [.beginRadio (nextBool s)] (takeBool s)

/-- `Radio.get_pa_level()`, after it answered `nextByte s`. -/
def radioGetPaLevel (s : State) : State := logEvents [.getPaLevel (nextByte s)] (takeByte s)

/-- `Radio.set_listen(b)`. -/
def radioSetListen (b : Bool) (s : State) : State := logEvents [.setListen b] s

/-- `Radio.set_channel(n)`. -/
def radioSetChannel (n : Int) (s : State) : State := logEvents [.setChannel n] s

/-- `Radio.write(f)`, after it answered `nextBool s`. -/
def radioWrite (f : Bytes) (s : State) : State := logEvents [.write f (nextBool s)] (takeBool s)

/-- `Radio.available()`, after it answered `nextBool s`. -/
def radioAvailable (s : State) : State := logEvents [.available (nextBool s)] (takeBool s)

/-- `Radio.get_payload_size()`, after it answered `nextByte s`. -/
def radioGetPayloadSize (s : State) : State := logEvents [.getPayloadSize (nextByte s)] (takeByte s)

/-- `Radio.read(n)`, after it answered `nextBytes s`. -/
def radioRead (n : Byte) (s : State) : State := logEvents [.read n (nextBytes s)] (takeBytes s)

/-- The transactions BEGIN issues after `begin` answered true and before the channel is set, in their order (R220). -/
def beginConfig : List RadioEvent :=
  [.setCrcLength 0, .setAutoAck false, .setDynamicPayloads false, .setRetries Config.retryDelay 0,
    .setAddressWidth addrWidth, .openTxPipe pipeAddr, .openRxPipe Config.rxPipe pipeAddr]

end Sys2Proof.Machine
end

