-- ==== Sys2Proof/Machine/Operands.lean ====
section
/-! DEFINITION. The two forms in which a command carries its payload (R230). -/

namespace Sys2Proof.Machine

/-- A payload and its length `h`. The length is computed before the bytes are made (R230, C4), so the bytes are only
looked at once the budget check has passed. -/
structure Payload where
  h : Nat
  bytes : Bytes
  deriving DecidableEq, Repr

/-- The single buffer `D` with data type `A` (R230). -/
def singlePayload (a : Byte) (d : Bytes) : Payload :=
  if d.length = 0 ∧ emptySingleChunked = false then { h := 0, bytes := [] }
  else { h := d.length + 2, bytes := chunk d a }

/-- A sequence of buffers, concatenated with no framing added (R230). -/
def sequencePayload (seq : List Bytes) : Payload := { h := seq.flatten.length, bytes := seq.flatten }

end Sys2Proof.Machine
end

