-- ==== Sys2Proof/Machine/Assembly.lean ====
section
/-! DEFINITION. The payload budget and the PDU assembler shared by LENAVAIL, ASSEMBLE, ASMSEQ, ADV and ADVSEQ
(R227–R236). -/

namespace Sys2Proof.Machine

/-- `name2`: what a present name costs (R227). -/
def name2 (e : Engine) : Nat :=
  match e.name with
  | none => 0
  | some n => n.length + 2

/-- `budget(h)`, on unbounded integers (R228). -/
def budget (e : Engine) (h : Nat) : Int := (budgetBase : Int) - name2 e - powerTerm e - h

/-- `L`, the PDU length byte (R231). -/
def pduLength (e : Engine) (h : Nat) : Nat := 6 + 3 + powerTerm e + name2 e + h + (if lenCountsCrc then 3 else 0)

/-- The PDU before its CRC (R232). -/
def pduBody (e : Engine) (p : Payload) (pwr : Byte) : Bytes :=
  [hdr0, BitVec.ofNat 8 (pduLength e p.h)] ++ macBytes e.mac ++ chunk [flagsData] flagsType
    ++ (if e.showPower then chunk [pwr] powerType else [])
    ++ (match e.name with
      | none => []
      | some n => chunk n nameType)
    ++ p.bytes

/-- `pdu(payload, pwr)` (R232). -/
def pdu (e : Engine) (p : Payload) (pwr : Byte) : Bytes := pduBody e p pwr ++ crcBle (pduBody e p pwr)

/-- The power byte of the next PDU: `P_PA_DBM` of what the radio answers (R233), 0 when power is not shown (R235). -/
def powerByte (s : State) : Byte := if s.eng.showPower then Config.paDbm (nextByte s) else 0x00#8

/-- The state after the power byte was read (R235): `Radio.get_pa_level()` is issued only when power is shown. -/
def readPower (s : State) : State := if s.eng.showPower then radioGetPaLevel s else s

/-- `asm(h, payload)` (R235): the PDU and the state after the power was read, or the error; the state is then as before. -/
def asm (p : Payload) (s : State) : Except Err (Bytes × State) :=
  if budget s.eng p.h < 0 then .error (.budget (-(budget s.eng p.h)).toNat)
  else .ok (pdu s.eng p (powerByte s), readPower s)

/-- `frame(P)`, the on-air frame of a PDU on channel index `i` (R236). -/
def onAir (i : Fin 3) (pduBytes : Bytes) : Bytes := revbuf (whiten pduBytes (coef i))

/-- What ASSEMBLE and ASMSEQ do with a payload (R240, R242). -/
def assemblePayload (p : Payload) (s : State) : State :=
  match asm p s with
  | .error e => raiseErr e s
  | .ok (b, s') => respondOk b s'

/-- What ADV and ADVSEQ do with a payload (R244, R246). -/
def advertisePayload (p : Payload) (s : State) : State :=
  match asm p s with
  | .error e => raiseErr e s
  | .ok (b, s1) =>
    let s2 := radioSetListen false s1
    let s3 := radioWrite (onAir s.eng.chanIdx b) s2
    if nextBool s2 then respondOk [] s3 else raiseErr .radioWrite s3

end Sys2Proof.Machine
end

