-- ==== Sys2Proof/Machine/Assembler.lean ====
section
/-! DEFINITION. The commands of 44_assembler.md: BEGIN, HOP, LENAVAIL, ASSEMBLE, ASMSEQ, ADV, ADVSEQ. -/

namespace Sys2Proof.Machine

/-- What a BEGIN does once `Radio.begin` answered true (R220). -/
def configureRadio (s : State) : State :=
  setConfigured true
    (logEvents [.setChannel (freq 0), .setPower true, .setListen true] (setChanIdx 0 (logEvents beginConfig s)))

/-- BEGIN (R220). A failed `Radio.begin` stays in the log and changes nothing else (R329). -/
def execBegin (s : State) : Host.Outcome State Fault Refusal :=
  .next (if nextBool s then respondOk [] (configureRadio (radioBegin s)) else raiseErr .radioInit (radioBegin s))

/-- The index after `i`, cyclically (R31, R222). -/
def nextIndex (i : Fin 3) : Fin 3 := ⟨(i.val + 1) % 3, Nat.mod_lt _ (by decide)⟩

/-- HOP (R222). -/
def execHop (s : State) : Host.Outcome State Fault Refusal :=
  .next (respondOk []
    (radioSetChannel (freq (nextIndex s.eng.chanIdx)) (setChanIdx (nextIndex s.eng.chanIdx) s)))

/-- LENAVAIL (R226): the budget as s16, low byte first. -/
def execLenavail (a : Byte) (s : State) : Host.Outcome State Fault Refusal :=
  .next (respondOk (le16 (BitVec.ofInt 16 (budget s.eng a.toNat))) s)

/-- ASSEMBLE (R240). -/
def execAssemble (a : Byte) (d : Bytes) (s : State) : Host.Outcome State Fault Refusal :=
  .next (assemblePayload (singlePayload a d) s)

/-- ASMSEQ (R242). -/
def execAsmseq (seq : List Bytes) (s : State) : Host.Outcome State Fault Refusal :=
  .next (assemblePayload (sequencePayload seq) s)

/-- ADV (R244). -/
def execAdv (a : Byte) (d : Bytes) (s : State) : Host.Outcome State Fault Refusal :=
  .next (advertisePayload (singlePayload a d) s)

/-- ADVSEQ (R246). -/
def execAdvseq (seq : List Bytes) (s : State) : Host.Outcome State Fault Refusal :=
  .next (advertisePayload (sequencePayload seq) s)

end Sys2Proof.Machine
end

