-- ==== Sys2Proof/Machine/Checksum.lean ====
section
/-! DEFINITION. The command of 42_crc24.md: CRC24. -/

namespace Sys2Proof.Machine

/-- CRC24 (R172). -/
def execCrc24 (poly init : U24) (d : Bytes) (s : State) : Host.Outcome State Fault Refusal :=
  .next (respondOk (crc24 d poly init) s)

end Sys2Proof.Machine
end

