-- ==== Sys2Proof/Machine/Reception.lean ====
section
/-! DEFINITION. The receive pipeline shared by POLL, READ and DECODE: front end, validation, chunk walk, record encoding
(R270–R276, R286). -/

namespace Sys2Proof.Machine

/-- `rx_front(raw)` on channel index `i` (R271). -/
def rxFront (i : Fin 3) (raw : Bytes) : Bytes := whiten (revbuf raw) (coef i)

/-- `L + 2`, and 3 more when the length byte does not count the CRC: the bytes of the whole PDU (R272). -/
def pduExtent (l : Nat) : Nat := l + 2 + (if lenCountsCrc then 0 else 3)

/-- `rx_validate(f)` (R272): `none` is DROP, `some (g, E)` the truncated PDU and where its CRC starts. -/
def rxValidate (f : Bytes) : Option (Bytes × Nat) :=
  let l := (f.getD 1 0#8).toNat
  let t := pduExtent l
  let g := f.take t
  let e := t - 3
  if f.length < 2 then none
  else if ¬ l < rxLenLimit then none
  else if f.length < t then none
  else if e < parseStart then none
  else if g.drop e ≠ crcBle (g.take e) then none
  else some (g, e)

/-- `lo ≤ b ≤ hi`, as unsigned bytes. -/
def inRange (lo hi : Nat) (b : Byte) : Bool := decide (lo ≤ b.toNat) && decide (b.toNat ≤ hi)

/-- `valid_utf8(b)` by the table of R275. -/
def validUtf8 : Bytes → Bool
  | [] => true
  | b1 :: r1 =>
    if inRange 0x00 0x7F b1 then validUtf8 r1
    else
      match r1 with
      | [] => false
      | b2 :: r2 =>
        if inRange 0xC2 0xDF b1 && inRange 0x80 0xBF b2 then validUtf8 r2
        else
          match r2 with
          | [] => false
          | b3 :: r3 =>
            if (inRange 0xE0 0xE0 b1 && inRange 0xA0 0xBF b2 || inRange 0xE1 0xEC b1 && inRange 0x80 0xBF b2
                || inRange 0xED 0xED b1 && inRange 0x80 0x9F b2 || inRange 0xEE 0xEF b1 && inRange 0x80 0xBF b2)
                && inRange 0x80 0xBF b3 then validUtf8 r3
            else
              match r3 with
              | [] => false
              | b4 :: r4 =>
                if (inRange 0xF0 0xF0 b1 && inRange 0x90 0xBF b2 || inRange 0xF1 0xF3 b1 && inRange 0x80 0xBF b2
                    || inRange 0xF4 0xF4 b1 && inRange 0x80 0x8F b2)
                    && inRange 0x80 0xBF b3 && inRange 0x80 0xBF b4 then validUtf8 r4
                else false

/-- `svc_kind(u)` (R276). -/
def svcKind (u : U16) : Option SvcKind :=
  if u = batteryUuid then some .battery
  else if u = uuidTemperature then some .temperature
  else if u = uuidUrl then some .url
  else none

/-- `rec.data <- rec.data ++ [x]` (R273). -/
def addItem (x : Item) (r : Record) : Record := { r with data := r.data ++ [x] }

/-- A service-data chunk (R274): recognised by its little-endian UUID, else kept whole. -/
def dispatchService (body whole : Bytes) (r : Record) : Record :=
  match body with
  | u0 :: u1 :: rest =>
    match svcKind (u16le u0 u1) with
    | some k => addItem (.svc (u16le u0 u1) k rest) r
    | none => addItem (.raw whole) r
  | _ => addItem (.raw whole) r

/-- `dispatch(rec, t, body, whole)` (R274). -/
def dispatchChunk (t : Byte) (body whole : Bytes) (r : Record) : Record :=
  if t = flagsType then r
  else if t = powerType then
    match body with
    | [v] => { r with power := some v }
    | _ => addItem (.raw whole) r
  else if t = nameType then { r with name := if validUtf8 body then .text body else .raw body }
  else if t = svcType then dispatchService body whole r
  else addItem (.raw whole) r

/-- The chunk walk of R273 over what is left of the AD region. Each round takes 2 bytes or more, so the region's length
is rounds enough. -/
def walkChunks : Nat → Bytes → Record → Record
  | _, [], r => r
  | 0, _ :: _, r => r
  | k + 1, size :: ad, r =>
    if size.toNat = 0 ∨ ad.length < size.toNat then addItem (.raw (size :: ad)) r
    else
      walkChunks k (ad.drop size.toNat)
        (dispatchChunk (ad.headD 0#8) ((ad.take size.toNat).tail) (size :: ad.take size.toNat) r)

/-- `parse(g, E)` (R273): the walk over `g[8 .. E)`. -/
def parseRecord (g : Bytes) (e : Nat) : Record :=
  let ad := (g.take e).drop parseStart
  walkChunks ad.length ad { mac := macAt g 2, name := .absent, power := none, data := [] }

/-- The whole pipeline on channel index `i` (R270): the record of an accepted buffer, `none` for a dropped one. -/
def receive (i : Fin 3) (raw : Bytes) : Option Record :=
  (rxValidate (rxFront i raw)).map (fun v => parseRecord v.1 v.2)

/-- A byte string behind its length byte (R286). -/
def lenBytes (b : Bytes) : Bytes := BitVec.ofNat 8 b.length :: b

/-- `kcode(k)` (R286). -/
def kindCode : SvcKind → Byte
  | .battery => 0x01#8
  | .temperature => 0x02#8
  | .url => 0x03#8

/-- `item(x)` (R286). -/
def encItem : Item → Bytes
  | .raw b => 0x00#8 :: lenBytes b
  | .svc u k b => 0x01#8 :: (le16 u ++ kindCode k :: lenBytes b)

/-- The name of a record in a response (R286). -/
def encName : RecordName → Bytes
  | .absent => [0x00#8]
  | .text b => 0x01#8 :: lenBytes b
  | .raw b => 0x02#8 :: lenBytes b

/-- The power of a record in a response (R286). -/
def encPower : Option Byte → Bytes
  | none => [0x00#8]
  | some v => [0x01#8, v]

/-- `enc(rec)` (R286). -/
def encRecord (r : Record) : Bytes :=
  macBytes r.mac ++ encName r.name ++ encPower r.power ++ BitVec.ofNat 8 r.data.length :: r.data.flatMap encItem

/-- The result of READ and DECODE: none, or a record (R100, R283, R285). -/
def recordResult : Option Record → Bytes
  | none => [0x00#8]
  | some r => 0x01#8 :: encRecord r

end Sys2Proof.Machine
end

