-- ==== Sys2Proof/Machine/Disassembler.lean ====
section
/-! DEFINITION. The commands of 45_disassembler.md: POLL, READ, DECODE. -/

namespace Sys2Proof.Machine

/-- `S.RXQ <- S.RXQ ++ [rec]` for an accepted frame; a dropped one changes nothing (R280). -/
def enqueue (r : Option Record) (s : State) : State :=
  match r with
  | none => s
  | some x => setRxq (s.eng.rxq ++ [x]) s

/-- The state after POLL's transactions and its enqueueing (R280): the size and the payload are asked for only when
`Radio.available` answered true, and at most one frame is read (D24). -/
def pollRadio (s : State) : State :=
  let s1 := radioAvailable s
  if nextBool s then
    let s2 := radioGetPayloadSize s1
    let s3 := radioRead (nextByte s1) s2
    enqueue (receive s.eng.chanIdx (nextBytes s2)) s3
  else s1

/-- POLL (R280): answers whether the queue is non-empty. -/
def execPoll (s : State) : Host.Outcome State Fault Refusal :=
  .next (respondOk [if (pollRadio s).eng.rxq.isEmpty then 0x00#8 else 0x01#8] (pollRadio s))

/-- READ (R283). -/
def execRead (s : State) : Host.Outcome State Fault Refusal :=
  .next (respondOk (recordResult s.eng.rxq.head?) (setRxq s.eng.rxq.tail s))

/-- DECODE (R285). -/
def execDecode (d : Bytes) (s : State) : Host.Outcome State Fault Refusal :=
  .next (respondOk (recordResult (receive s.eng.chanIdx d)) s)

end Sys2Proof.Machine
end

