-- ==== Sys2Proof/Machine/Identity.lean ====
section
/-! DEFINITION. The commands of 43_identity.md: SETMAC, SETNAME, CLRNAME, SETPWR, GETCFG. -/

namespace Sys2Proof.Machine

/-- A flag as the byte a response carries (R201). -/
def flagByte (b : Bool) : Byte := if b then 0x01#8 else 0x00#8

/-- SETMAC (R190). A buffer of fewer than 6 bytes is discarded and all 6 bytes are drawn (D35). -/
def execSetmac (d : Bytes) (s : State) : Host.Outcome State Fault Refusal :=
  .next (if d.length > 6 then raiseErr .reserved s
    else if d.length = 6 then respondOk [] (setMac (macAt d 0) s)
    else respondOk [] (setMac (nextMac s) (takeMac s)))

/-- The name limit `18 - 3 · S.SHOW_POWER` (R193, R194). -/
def nameLimit (e : Engine) : Nat := nameLimitBase - powerTerm e

/-- SETNAME (R193). -/
def execSetname (d : Bytes) (s : State) : Host.Outcome State Fault Refusal :=
  .next (if d.length > nameLimit s.eng then raiseErr .name s else respondOk [] (setName (some d) s))

/-- CLRNAME (R196). -/
def execClrname (s : State) : Host.Outcome State Fault Refusal := .next (respondOk [] (setName none s))

/-- SETPWR (R198). -/
def execSetpwr (a : Byte) (s : State) : Host.Outcome State Fault Refusal :=
  .next (if a.toNat > 1 then raiseErr .reserved s
    else if a.toNat = 1 ∧ s.eng.name.isSome ∧ nameLen s.eng > powerEnableNameLimit then raiseErr .noroom s
    else respondOk [] (setShowPower (decide (a.toNat = 1)) s))

/-- The identity state as GETCFG answers it (R201). -/
def configBytes (e : Engine) : Bytes :=
  [BitVec.ofNat 8 e.chanIdx.val, flagByte e.showPower, flagByte e.configured, flagByte e.name.isSome,
    BitVec.ofNat 8 (nameLen e)] ++ e.name.getD [] ++ macBytes e.mac

/-- GETCFG (R201). -/
def execGetcfg (s : State) : Host.Outcome State Fault Refusal := .next (respondOk (configBytes s.eng) s)

end Sys2Proof.Machine
end

