-- ==== Sys2Proof/Machine/Permuter.lean ====
section
/-! DEFINITION. The commands of 40_bit_primitives.md: REVB, REVBUF, CHUNK. -/

namespace Sys2Proof.Machine

/-- REVB (R131). -/
def execRevb (a : Byte) (s : State) : Host.Outcome State Fault Refusal := .next (respondOk [rev8 a] s)

/-- REVBUF (R133). -/
def execRevbuf (d : Bytes) (s : State) : Host.Outcome State Fault Refusal := .next (respondOk (revbuf d) s)

/-- CHUNK (R136): E_CHUNK when the length byte cannot hold `N + 1`. -/
def execChunk (a : Byte) (d : Bytes) (s : State) : Host.Outcome State Fault Refusal :=
  .next (if d.length + 1 > 255 then raiseErr .chunk s else respondOk (chunk d a) s)

end Sys2Proof.Machine
end

