-- ==== Sys2Proof/Machine/Whitening.lean ====
section
/-! DEFINITION. The commands of 41_whitening.md: WHITEN, WHITENCH. -/

namespace Sys2Proof.Machine

/-- WHITEN (R152). -/
def execWhiten (a : Byte) (d : Bytes) (s : State) : Host.Outcome State Fault Refusal :=
  .next (respondOk (whiten d a) s)

/-- WHITENCH (R154): the coefficient of the channel index at the time of the command. -/
def execWhitench (d : Bytes) (s : State) : Host.Outcome State Fault Refusal :=
  .next (respondOk (whiten d (coef s.eng.chanIdx)) s)

end Sys2Proof.Machine
end

