-- ==== Sys2Proof/Machine/Dispatch.lean ====
section
/-! DEFINITION. One arm for each command (R95): the meaning it calls. -/

namespace Sys2Proof.Machine

def exec (i : Instr) (s : State) : Host.Outcome State Fault Refusal :=
  match i with
  | .revb a => Sys2Proof.Machine.execRevb a s
  | .revbuf d => Sys2Proof.Machine.execRevbuf d s
  | .chunk a d => Sys2Proof.Machine.execChunk a d s
  | .whiten a d => Sys2Proof.Machine.execWhiten a d s
  | .whitench d => Sys2Proof.Machine.execWhitench d s
  | .crc24 poly init d => Sys2Proof.Machine.execCrc24 poly init d s
  | .setmac d => Sys2Proof.Machine.execSetmac d s
  | .setname d => Sys2Proof.Machine.execSetname d s
  | .clrname => Sys2Proof.Machine.execClrname s
  | .setpwr a => Sys2Proof.Machine.execSetpwr a s
  | .getcfg => Sys2Proof.Machine.execGetcfg s
  | .beginRadio => Sys2Proof.Machine.execBegin s
  | .hop => Sys2Proof.Machine.execHop s
  | .lenavail a => Sys2Proof.Machine.execLenavail a s
  | .assemble a d => Sys2Proof.Machine.execAssemble a d s
  | .asmseq seq => Sys2Proof.Machine.execAsmseq seq s
  | .adv a d => Sys2Proof.Machine.execAdv a d s
  | .advseq seq => Sys2Proof.Machine.execAdvseq seq s
  | .poll => Sys2Proof.Machine.execPoll s
  | .read => Sys2Proof.Machine.execRead s
  | .decode d => Sys2Proof.Machine.execDecode d s

end Sys2Proof.Machine
end

