-- ==== Sys2Proof/Machine/Step.lean ====
section
/-! DEFINITION. One step: the pending frame leaves the command channel, is checked (R330), and its command runs to
completion (R8, R69). -/

namespace Sys2Proof.Machine

/-- One command. Frame checks come first (R330): a frame that spells no command is answered with its error and changes
nothing else (R94). With no frame pending the engine has no step (R9; log 3). -/
def step (s : State) : Host.Outcome State Fault Refusal :=
  match s.cmdIn with
  | [] => .fault .noCommandPending
  | f :: _ =>
    match decodeFrame f with
    | .error e => .next (raiseErr (frameErr e) (dropFrame s))
    | .ok i => exec i (dropFrame s)

/-- `s` with the frame of a table word in the place of the host's next command frame (log 4). -/
def State.withFetchWord (s : State) (nbits w : Nat) : State := { s with cmdIn := tableFrame nbits w :: s.cmdIn.tail }

end Sys2Proof.Machine
end

