-- ==== Sys2Proof/Safety.lean ====
section
/-! DEFINITION. The terms the claims use: what a response is, which frames are well shaped, the reference algorithms the
claims compare the model with, and the invariant of the reachable states. -/

namespace Sys2Proof.Machine

/-! ### Responses -/

/-- `s` after the one response `r` and nothing else: no engine state changes and no radio transaction is issued
(R42, R69). -/
def answered (s : State) (r : Bytes) : State := { s with responses := s.responses ++ [r], hpc := s.hpc + 1 }

/-- `s` after the one response `r`, the engine state being `e` and the radio having carried `es`. -/
def answeredWith (s : State) (e : Engine) (es : List RadioEvent) (r : Bytes) : State :=
  { s with eng := e, radioLog := s.radioLog ++ es, responses := s.responses ++ [r], hpc := s.hpc + 1 }

/-- `s` with the pending frame gone from the command channel. -/
def consumed (s : State) (rest : List Bytes) : State := { s with cmdIn := rest }

/-! ### Frame shapes, as R91, R95 and R97 list them -/

/-- The opcodes of format F0 (R95). -/
def f0Opcodes : List Byte := [0x12#8, 0x14#8, 0x20#8, 0x21#8, 0x30#8, 0x31#8]

/-- The opcodes of format F1 (R95). -/
def f1Opcodes : List Byte := [0x01#8, 0x13#8, 0x22#8]

/-- The opcodes of format FB (R95). -/
def fbOpcodes : List Byte := [0x02#8, 0x09#8, 0x10#8, 0x11#8, 0x32#8]

/-- The opcodes of format FAB (R95). -/
def fabOpcodes : List Byte := [0x03#8, 0x08#8, 0x23#8, 0x25#8]

/-- The opcode of format FC (R95). -/
def fcOpcodes : List Byte := [0x0C#8]

/-- The opcodes of format FS (R95). -/
def fsOpcodes : List Byte := [0x24#8, 0x26#8]

/-- The 21 opcodes of the map (R95). -/
def listedOpcodes : List Byte := f0Opcodes ++ f1Opcodes ++ fbOpcodes ++ fabOpcodes ++ fcOpcodes ++ fsOpcodes

/-- The illegal opcodes, as R97 lists them. -/
def IllegalOpcode (op : Byte) : Prop :=
  op.toNat = 0x00 ∨ (0x04 ≤ op.toNat ∧ op.toNat ≤ 0x07) ∨ op.toNat = 0x0A ∨ op.toNat = 0x0B
    ∨ (0x0D ≤ op.toNat ∧ op.toNat ≤ 0x0F) ∨ (0x15 ≤ op.toNat ∧ op.toNat ≤ 0x1F)
    ∨ (0x27 ≤ op.toNat ∧ op.toNat ≤ 0x2F) ∨ (0x33 ≤ op.toNat ∧ op.toNat ≤ 0xFF)

/-- The length of a frame with a listed opcode is the one its format gives, or its FS walk passes (R91, R93, R94). -/
def WellShaped (f : Bytes) : Prop :=
  ∃ op r, f = op :: r ∧
    ((op ∈ f0Opcodes ∧ f.length = 1) ∨ (op ∈ f1Opcodes ∧ f.length = 2)
      ∨ (op ∈ fbOpcodes ∧ ∃ n, f[1]? = some n ∧ f.length = 2 + n.toNat)
      ∨ (op ∈ fabOpcodes ∧ ∃ n, f[2]? = some n ∧ f.length = 3 + n.toNat)
      ∨ (op ∈ fcOpcodes ∧ ∃ n, f[7]? = some n ∧ f.length = 8 + n.toNat)
      ∨ (op ∈ fsOpcodes ∧ ∃ seq : List Bytes, seq.length ≤ 255 ∧ (∀ d ∈ seq, d.length ≤ 255) ∧
          r = BitVec.ofNat 8 seq.length :: seq.flatMap (fun d => BitVec.ofNat 8 d.length :: d)))

/-! ### Reference algorithms -/

/-- One step of the whitening register alone: shift right, and XOR with 0x88 before it when the low bit is 1 (R150). -/
def lfsrNext (w : Byte) : Byte := if w.getLsbD 0 then (w ^^^ 0x88#8) >>> 1 else w >>> 1

/-- One bit-step of R170 on an unbounded register. -/
def wideCrcBit (poly crc : Nat) : Nat := if crc.testBit 23 then (crc <<< 1) ^^^ poly else crc <<< 1

/-- One data byte of R170 on an unbounded register, masked to 24 bits after the byte only, as the source does. -/
def wideCrcByte (poly crc : Nat) (b : Byte) : Nat :=
  ((wideCrcBit poly)^[8] (crc ^^^ ((rev8 b).toNat <<< 16))) &&& 0xFFFFFF

/-- `crc24` of R170 as its pseudocode has it: an unbounded register, masked after each byte. -/
def wideCrc24 (d : Bytes) (poly init : Nat) : Bytes :=
  let crc := d.foldl (wideCrcByte poly) init
  [rev8 (BitVec.ofNat 8 (crc / 65536)), rev8 (BitVec.ofNat 8 (crc / 256)), rev8 (BitVec.ofNat 8 crc)]

/-- `lo ≤ b ≤ hi`, the byte ranges of R275. -/
def Between (lo hi : Nat) (b : Byte) : Prop := lo ≤ b.toNat ∧ b.toNat ≤ hi

/-- One well-formed UTF-8 sequence: a row of the table of R275. -/
inductive Utf8Sequence : Bytes → Prop where
  | one (b1 : Byte) : Between 0x00 0x7F b1 → Utf8Sequence [b1]
  | two (b1 b2 : Byte) : Between 0xC2 0xDF b1 → Between 0x80 0xBF b2 → Utf8Sequence [b1, b2]
  | threeE0 (b1 b2 b3 : Byte) : Between 0xE0 0xE0 b1 → Between 0xA0 0xBF b2 → Between 0x80 0xBF b3 →
      Utf8Sequence [b1, b2, b3]
  | threeE1 (b1 b2 b3 : Byte) : Between 0xE1 0xEC b1 → Between 0x80 0xBF b2 → Between 0x80 0xBF b3 →
      Utf8Sequence [b1, b2, b3]
  | threeED (b1 b2 b3 : Byte) : Between 0xED 0xED b1 → Between 0x80 0x9F b2 → Between 0x80 0xBF b3 →
      Utf8Sequence [b1, b2, b3]
  | threeEE (b1 b2 b3 : Byte) : Between 0xEE 0xEF b1 → Between 0x80 0xBF b2 → Between 0x80 0xBF b3 →
      Utf8Sequence [b1, b2, b3]
  | fourF0 (b1 b2 b3 b4 : Byte) : Between 0xF0 0xF0 b1 → Between 0x90 0xBF b2 → Between 0x80 0xBF b3 →
      Between 0x80 0xBF b4 → Utf8Sequence [b1, b2, b3, b4]
  | fourF1 (b1 b2 b3 b4 : Byte) : Between 0xF1 0xF3 b1 → Between 0x80 0xBF b2 → Between 0x80 0xBF b3 →
      Between 0x80 0xBF b4 → Utf8Sequence [b1, b2, b3, b4]
  | fourF4 (b1 b2 b3 b4 : Byte) : Between 0xF4 0xF4 b1 → Between 0x80 0x8F b2 → Between 0x80 0xBF b3 →
      Between 0x80 0xBF b4 → Utf8Sequence [b1, b2, b3, b4]

/-! ### The AD region of a PDU -/

/-- A chunk as data: its type byte and its body (R135). -/
abbrev AdChunk := Byte × Bytes

/-- The bytes of a chunk: a length byte that counts the type byte and the body, the type byte, the body (R135). -/
def adChunkBytes (c : AdChunk) : Bytes := BitVec.ofNat 8 (c.2.length + 1) :: c.1 :: c.2

/-- A chunk whose length fits its length byte (R135). -/
def AdChunkFits (c : AdChunk) : Prop := c.2.length ≤ 254

/-- A tail at which the walk of R273 stops: empty, or a declared size that is 0 or overruns. -/
def UnparsedTail : Bytes → Prop
  | [] => True
  | size :: rest => size.toNat = 0 ∨ rest.length < size.toNat

/-- The item the round trip R287 expects of a chunk: `Svc` for a service-data chunk with a recognised UUID, `Raw` of the
whole chunk for every other. -/
def expectedItem (c : AdChunk) : Item :=
  match c.2 with
  | u0 :: u1 :: rest =>
    if c.1 = 0x16#8 then
      match svcKind (u1 ++ u0) with
      | some k => .svc (u1 ++ u0) k rest
      | none => .raw (adChunkBytes c)
    else .raw (adChunkBytes c)
  | _ => .raw (adChunkBytes c)

/-- An item framed again as the chunk it came from (R287). -/
def rechunk : Item → Bytes
  | .raw b => b
  | .svc u _ body => adChunkBytes (0x16#8, u.extractLsb' 0 8 :: u.extractLsb' 8 8 :: body)

/-! ### Errors by their causes (R320) -/

/-- A command that carries a payload, and the payload's length `h` (R230). -/
def payloadSize : Instr → Option Nat
  | .assemble _ d => some (d.length + 2)
  | .adv _ d => some (d.length + 2)
  | .asmseq seq => some seq.flatten.length
  | .advseq seq => some seq.flatten.length
  | _ => none

/-- The payload bytes of a command that carries a payload (R230). -/
def payloadBytes : Instr → Bytes
  | .assemble a d => BitVec.ofNat 8 (d.length + 1) :: a :: d
  | .adv a d => BitVec.ofNat 8 (d.length + 1) :: a :: d
  | .asmseq seq => seq.flatten
  | .advseq seq => seq.flatten
  | _ => []

/-- Bytes of budget left after the name, the power chunk and `h` bytes of payload (R227, R228). -/
def budgetLeft (e : Engine) (h : Nat) : Int :=
  18 - (match e.name with
    | none => 0
    | some n => (n.length : Int) + 2) - (if e.showPower then 3 else 0) - h

/-- The commands that write the radio (R244, R246). -/
def Transmits : Instr → Prop
  | .adv _ _ => True
  | .advseq _ => True
  | _ => False

/-- The power byte read for a PDU: a transaction and a draw when power is shown, else none (R233, R235). -/
def powerEvents (s : State) : List RadioEvent := if s.eng.showPower then [.getPaLevel (nextByte s)] else []

/-- `s` after the draw that reads the power, when power is shown (R235). -/
def afterPower (s : State) : State := if s.eng.showPower then takeByte s else s

/-- The PDU of R232 for a payload of `h` bytes, written out from the table of R234, its CRC by the unbounded algorithm. -/
def referencePdu (s : State) (payload : Bytes) : Bytes :=
  let m := s.eng.mac
  let body := [0x42#8, BitVec.ofNat 8 (30 - budgetLeft s.eng payload.length).toNat, m.b0, m.b1, m.b2, m.b3, m.b4, m.b5,
      0x02#8, 0x01#8, 0x05#8]
    ++ (if s.eng.showPower then [0x02#8, 0x0A#8, Config.paDbm (nextByte s)] else [])
    ++ (match s.eng.name with
      | none => []
      | some n => BitVec.ofNat 8 (n.length + 1) :: 0x08#8 :: n)
    ++ payload
  body ++ wideCrc24 body 0x00065B 0x555555

/-! ### Received buffers -/

/-- The checks of R272 on a de-whitened buffer `f`, with `P_LEN_COUNTS_CRC = true`: it is accepted, its PDU is `g` and the
CRC of the PDU starts at `e`. -/
def Accepted (f g : Bytes) (e : Nat) : Prop :=
  ∃ l : Byte, f[1]? = some l ∧ l.toNat < 30 ∧ l.toNat + 2 ≤ f.length ∧ g = f.take (l.toNat + 2) ∧ e + 3 = l.toNat + 2
    ∧ 8 ≤ e ∧ g.drop e = wideCrc24 (g.take e) 0x00065B 0x555555

/-! ### The invariant of the reachable states -/

/-- The reachable name lengths: at most 18, and at most 16 whenever power is shown (R33). -/
def NameFits (e : Engine) : Prop := ∀ n, e.name = some n → n.length ≤ 18 ∧ (e.showPower = true → n.length ≤ 16)

/-- The size of a record's item, as a validated PDU of at most 31 bytes allows (R272, R286), and the kind of a `Svc` item
is the one its UUID has (R276). -/
def ItemFits : Item → Prop
  | .raw b => b.length ≤ 20
  | .svc u k body => body.length ≤ 16 ∧ svcKind u = some k

/-- The size of a record's name (R272, R286). -/
def RecordNameFits : RecordName → Prop
  | .absent => True
  | .text b => b.length ≤ 18 ∧ validUtf8 b = true
  | .raw b => b.length ≤ 18 ∧ validUtf8 b = false

/-- The sizes of a record that came from a validated PDU (R272, R286). -/
def RecordFits (r : Record) : Prop := RecordNameFits r.name ∧ r.data.length ≤ 10 ∧ ∀ x ∈ r.data, ItemFits x

/-- A record a validated PDU gives: what parsing makes of a buffer that passes the receive checks (R272, R273). -/
def ValidatedRecord (r : Record) : Prop := ∃ f g e, Accepted f g e ∧ r = parseRecord g e

/-- The invariant: the name fits (R33), every queued record is one a validated PDU gives (R36, R272, R273), and the host
counter is the number of responses (R42). -/
def Invariant (s : State) : Prop :=
  NameFits s.eng ∧ (∀ r ∈ s.eng.rxq, ValidatedRecord r) ∧ s.hpc = s.responses.length

end Sys2Proof.Machine
end

