-- ==== Sys2Proof/Certificates/Slice0/Obligations.lean ====
section
/-! DEFINITION. What is to be proved of the model, from the numbered rules of spec/. A statement that a command which
issues a radio transaction answers holds of a model in which every radio transaction answers: that is the model's choice
(log 2), the premise R374 and I4 of 93_implementation_defined.md ask of such a claim. -/

open Sys2Proof Sys2Proof.Machine

/-! ### Frames and commands (30_encoding.md) -/

/-- Decoding the frame of a well-formed command gives that command back, with every operand at every value (R91–R95). -/
def Obligations.EncodedCommandDecodesBack : Prop := ∀ i : Instr, i.wellFormed = true → decodeFrame (encode i) = .ok i

/-- A frame that decodes is the frame of the command it decodes to, and that command is well formed (R91–R95). -/
def Obligations.DecodedFrameIsTheCommandsFrame : Prop :=
  ∀ (f : Bytes) (i : Instr), decodeFrame f = .ok i → i.wellFormed = true ∧ encode i = f

/-- The frames of R103, and one of every other family, decode to the commands they spell. -/
def Obligations.SpelledFramesDecode : Prop :=
  decodeFrame [0x21#8] = .ok .hop ∧ decodeFrame [0x01#8, 0x01#8] = .ok (.revb 0x01#8)
    ∧ decodeFrame [0x02#8, 0x04#8, 0x01#8, 0x02#8, 0x03#8, 0x80#8] = .ok (.revbuf [0x01#8, 0x02#8, 0x03#8, 0x80#8])
    ∧ decodeFrame [0x03#8, 0x16#8, 0x03#8, 0x0F#8, 0x18#8, 0x55#8] = .ok (.chunk 0x16#8 [0x0F#8, 0x18#8, 0x55#8])
    ∧ decodeFrame [0x0C#8, 0x5B#8, 0x06#8, 0x00#8, 0x55#8, 0x55#8, 0x55#8, 0x00#8]
      = .ok (.crc24 0x00065B#24 0x555555#24 [])
    ∧ decodeFrame [0x26#8, 0x02#8, 0x05#8, 0x04#8, 0x16#8, 0x0F#8, 0x18#8, 0x55#8, 0x00#8]
      = .ok (.advseq [[0x04#8, 0x16#8, 0x0F#8, 0x18#8, 0x55#8], []])
    ∧ decodeFrame [0x08#8, 0x65#8, 0x01#8, 0xAB#8] = .ok (.whiten 0x65#8 [0xAB#8])
    ∧ decodeFrame [0x13#8, 0x01#8] = .ok (.setpwr 0x01#8) ∧ decodeFrame [0x30#8] = .ok .poll

/-- The opcode byte alone, all 8 bits of it, says which command a frame is: two frames that decode spell the same
command exactly when their first bytes are equal (R96). -/
def Obligations.OpcodeByteAloneSelectsTheCommand : Prop :=
  ∀ (op op' : Byte) (r r' : Bytes) (i j : Instr), decodeFrame (op :: r) = .ok i → decodeFrame (op' :: r') = .ok j →
    (i.mnemonic = j.mnemonic ↔ op = op')

/-- A frame whose first byte R97 lists is answered `[0x01]` with no other effect, whatever follows; a frame with any
other first byte is never answered so (R97, R321). -/
def Obligations.IllegalOpcodesAnswerIllegal : Prop :=
  ∀ (s : State) (op : Byte) (r : Bytes) (rest : List Bytes), s.cmdIn = (op :: r) :: rest →
    (IllegalOpcode op → step s = .next (answered (consumed s rest) [0x01#8]))
      ∧ (¬ IllegalOpcode op → ∃ t b, step s = .next t ∧ t.responses = s.responses ++ [b] ∧ b.head? ≠ some 0x01#8)

/-- An empty frame, and a frame with a listed opcode whose length its format does not give or whose walk fails, is
answered `[0x02]` with no other effect; a well-shaped frame runs its command (R323). -/
def Obligations.MisshapenFramesAnswerMalformed : Prop :=
  ∀ (s : State) (f : Bytes) (rest : List Bytes), s.cmdIn = f :: rest →
    (f = [] ∨ (∃ op ∈ listedOpcodes, f.head? = some op) ∧ ¬ WellShaped f →
        step s = .next (answered (consumed s rest) [0x02#8]))
      ∧ (WellShaped f → ∃ i, decodeFrame f = .ok i ∧ step s = exec i (consumed s rest))

/-- Whatever follows a frame in a byte stream, its header and length bytes tell where it ends (R99). -/
def Obligations.StreamShowsWhereAFrameEnds : Prop :=
  ∀ (i : Instr) (more : Bytes), i.wellFormed = true → frameEnd (encode i ++ more) = some (encode i).length

/-! ### The step (00_scope.md, 10_state.md, 60_exceptions.md) -/

/-- A pending frame that decodes leaves the channel and its command runs; so does the frame of any well-formed command.
-/
def Obligations.StepRunsTheDecodedCommand : Prop :=
  ∀ (s : State) (f : Bytes) (rest : List Bytes) (i : Instr), s.cmdIn = f :: rest →
    (decodeFrame f = .ok i → step s = exec i (consumed s rest))
      ∧ (i.wellFormed = true → f = encode i → step s = exec i (consumed s rest))

/-- The engine has no step with no command pending (the model's stop of log 3), and steps on every pending frame: the
answer is one non-empty response, the host counter advances by exactly 1, whatever the status, and the frame is gone
(R9, R42, R100). That a frame is answered at all is the model's choice where its command issues a radio transaction: in
the model every radio transaction answers (log 2), the premise R374 and I4 of 93_implementation_defined.md ask for. -/
def Obligations.EveryFrameIsAnsweredOnce : Prop :=
  (∀ s : State, s.cmdIn = [] → step s = .fault .noCommandPending)
    ∧ ∀ (s : State) (f : Bytes) (rest : List Bytes), s.cmdIn = f :: rest →
      ∃ t b, step s = .next t ∧ b ≠ [] ∧ t.responses = s.responses ++ [b] ∧ t.hpc = s.hpc + 1 ∧ t.cmdIn = rest

/-- Every command, with every operand, in every state, before or after BEGIN, completes with one response and touches
neither the host's pending frames nor an earlier response or log entry. That a response comes at all is the model's choice
where the command issues a radio transaction: in the model every radio transaction answers (log 2), the premise R66, R374
and I4 of 93_implementation_defined.md ask for. That it is one, that a command is atomic, and that none is refused before
BEGIN follow R100, R69 and R337. -/
def Obligations.EveryCommandCompletes : Prop :=
  ∀ (i : Instr) (s : State), ∃ t b es, exec i s = .next t ∧ b ≠ [] ∧ t.responses = s.responses ++ [b]
    ∧ t.hpc = s.hpc + 1 ∧ t.cmdIn = s.cmdIn ∧ t.radioLog = s.radioLog ++ es
    ∧ (es ≠ [] → i.mnemonic ∈ ["BEGIN", "HOP", "ASSEMBLE", "ASMSEQ", "ADV", "ADVSEQ", "POLL"])

/-- An error leaves the engine state as it was before the command; only E_RADIO_INIT and E_RADIO_WRITE follow a radio
transaction (R331, R334). -/
def Obligations.ErrorsArePrecise : Prop :=
  ∀ (s t : State) (c : Byte) (b : Bytes), step s = .next t → t.responses = s.responses ++ [c :: b] → c ≠ 0x00#8 →
    t.eng = s.eng ∧ (c ≠ 0x20#8 → c ≠ 0x21#8 → t.radioLog = s.radioLog ∧ t.feed = s.feed ∧ t.draws = s.draws)

/-- The status of a command tells its outcome by the causes of R320: each code exactly when its cause holds, OK exactly
when none does, no other code, and extra bytes (two) only for E_BUDGET (R320, R324–R329, R331, R333). -/
def Obligations.EachErrorStatusHasItsCause : Prop :=
  ∀ (i : Instr) (s : State), ∃ t c b es, exec i s = .next t ∧ t.responses = s.responses ++ [c :: b]
    ∧ t.radioLog = s.radioLog ++ es
    ∧ (c = 0x03#8 ↔ (∃ d, i = .setmac d ∧ d.length > 6) ∨ ∃ a, i = .setpwr a ∧ a.toNat > 1)
    ∧ (c = 0x10#8 ↔ ∃ a d, i = .chunk a d ∧ d.length ≥ 255)
    ∧ (c = 0x11#8 ↔ ∃ h, payloadSize i = some h ∧ budgetLeft s.eng h < 0)
    ∧ (c = 0x12#8 ↔ ∃ d, i = .setname d ∧ d.length > (if s.eng.showPower then 15 else 18))
    ∧ (c = 0x13#8 ↔ i = .setpwr 0x01#8 ∧ ∃ n, s.eng.name = some n ∧ n.length > 16)
    ∧ (c = 0x20#8 ↔ i = .beginRadio ∧ es = [.beginRadio false])
    ∧ (c = 0x21#8 ↔ Transmits i ∧ ∃ f, es = powerEvents s ++ [.setListen false, .write f false])
    ∧ c ∈ [0x00#8, 0x03#8, 0x10#8, 0x11#8, 0x12#8, 0x13#8, 0x20#8, 0x21#8]
    ∧ (c ≠ 0x00#8 → b.length = if c = 0x11#8 then 2 else 0)

/-- No assembly command changes engine state; the MAC changes only by SETMAC (R248, which the spec derives from its
command rules). -/
def Obligations.AssemblyChangesNoEngineState : Prop :=
  (∀ (i : Instr) (s : State) (h : Nat), payloadSize i = some h → ∃ t, exec i s = .next t ∧ t.eng = s.eng)
    ∧ ∀ (i : Instr) (s t : State), exec i s = .next t → t.eng.mac ≠ s.eng.mac → ∃ d, i = .setmac d

/-- No command other than HOP and BEGIN changes the channel index (R223). -/
def Obligations.OnlyHopAndBeginMoveTheChannel : Prop :=
  ∀ (i : Instr) (s t : State), exec i s = .next t → t.eng.chanIdx ≠ s.eng.chanIdx → i = .hop ∨ i = .beginRadio

/-- Each other field of the engine is written only by the commands R33–R36 name: the name by SETNAME and CLRNAME, the
flag by SETPWR, CONFIGURED by BEGIN, which only sets it, and the queue by POLL, which only appends at most one record,
and READ, which only pops the oldest. -/
def Obligations.FieldsHaveTheirWriters : Prop :=
  ∀ (i : Instr) (s t : State), exec i s = .next t →
    (t.eng.name ≠ s.eng.name → (∃ d, i = .setname d ∧ t.eng.name = some d) ∨ (i = .clrname ∧ t.eng.name = none))
      ∧ (t.eng.showPower ≠ s.eng.showPower → ∃ a, i = .setpwr a)
      ∧ (t.eng.configured ≠ s.eng.configured → i = .beginRadio ∧ t.eng.configured = true)
      ∧ (t.eng.rxq ≠ s.eng.rxq →
          (i = .poll ∧ ∃ r, t.eng.rxq = s.eng.rxq ++ [r]) ∨ (i = .read ∧ t.eng.rxq = s.eng.rxq.tail))

/-- No command but GETCFG reads CONFIGURED: flipping it changes no response, no radio transaction and no other field
(R35). -/
def Obligations.ConfiguredIsOnlyReported : Prop :=
  ∀ (i : Instr) (s : State) (b : Bool), i ≠ .getcfg → ∃ t t', exec i s = .next t ∧ exec i (setConfigured b s) = .next t'
    ∧ t'.responses = t.responses ∧ t'.radioLog = t.radioLog
    ∧ t'.eng = { t.eng with configured := t'.eng.configured }

/-- Reception does not look at the engine's own identity: with another MAC, name and power flag, POLL, READ and DECODE
give the same response, the same radio transactions and the same queue. -/
def Obligations.ReceptionIgnoresIdentity : Prop :=
  ∀ (i : Instr) (s : State) (m : Mac) (n : Option Bytes) (p : Bool), i = .poll ∨ i = .read ∨ (∃ d, i = .decode d) →
    ∃ t t', exec i s = .next t ∧ exec i (setMac m (setName n (setShowPower p s))) = .next t'
      ∧ t'.responses = t.responses ∧ t'.radioLog = t.radioLog ∧ t'.eng.rxq = t.eng.rxq

/-- Which command issues which radio transaction, for all sixteen of R64. The channel is set by HOP and BEGIN only, to
the physical channel of the index they leave (R38, R223). `begin`, the CRC length, auto-ack, dynamic payloads, retries,
address width, the two pipes and the power-up are BEGIN's only (R220, R362), and so is entering receive mode; only ADV and
ADVSEQ leave it (R244, R375). Only they write (R244, R246); only POLL asks for a payload, its size and its bytes (R280);
and the power level is read only for a payload while power is shown (R233, R235). -/
def Obligations.RadioTransactionsHaveTheirIssuers : Prop :=
  ∀ (i : Instr) (s t : State) (es : List RadioEvent), exec i s = .next t → t.radioLog = s.radioLog ++ es → ∀ x ∈ es,
    (∀ n, x = .setChannel n → (i = .hop ∨ i = .beginRadio) ∧ ([2, 26, 80] : List Int)[t.eng.chanIdx.val]? = some n)
      ∧ (∀ ok, x = .beginRadio ok → i = .beginRadio) ∧ (∀ n, x = .setCrcLength n → i = .beginRadio)
      ∧ (∀ b, x = .setAutoAck b → i = .beginRadio) ∧ (∀ b, x = .setDynamicPayloads b → i = .beginRadio)
      ∧ (∀ d n, x = .setRetries d n → i = .beginRadio) ∧ (∀ n, x = .setAddressWidth n → i = .beginRadio)
      ∧ (∀ a, x = .openTxPipe a → i = .beginRadio) ∧ (∀ p a, x = .openRxPipe p a → i = .beginRadio)
      ∧ (∀ b, x = .setPower b → i = .beginRadio)
      ∧ (x = .setListen true → i = .beginRadio) ∧ (x = .setListen false → Transmits i)
      ∧ (∀ f ok, x = .write f ok → Transmits i)
      ∧ (∀ a, x = .available a → i = .poll) ∧ (∀ n, x = .getPayloadSize n → i = .poll)
      ∧ (∀ n b, x = .read n b → i = .poll)
      ∧ (∀ v, x = .getPaLevel v → s.eng.showPower = true ∧ ∃ h, payloadSize i = some h)

/-! ### Permuter and chunks (40_bit_primitives.md) -/

/-- REVB answers the byte whose bit `7 - i` is bit `i` of its operand, and changes nothing else (R130). -/
def Obligations.RevbAnswersTheReversedByte : Prop :=
  ∀ (a : Byte) (s : State), (∀ i < 8, (rev8 a).getLsbD (7 - i) = a.getLsbD i)
    ∧ exec (.revb a) s = .next (answered s [0x00#8, rev8 a])

/-- REVBUF answers as many bytes, each the reversal of the byte at its index, and changes nothing else (R132). -/
def Obligations.RevbufReversesEachByteInPlace : Prop :=
  ∀ (d : Bytes) (s : State), (revbuf d).length = d.length ∧ (∀ i < d.length, (revbuf d)[i]? = (d[i]?).map rev8)
    ∧ exec (.revbuf d) s = .next (answered s (0x00#8 :: revbuf d))

/-- Reversing twice gives back a byte and a buffer, and the length is kept (R134, which the spec derives from R130 and
R132). -/
def Obligations.BitReversalIsAnInvolution : Prop :=
  (∀ b : Byte, rev8 (rev8 b) = b) ∧ ∀ d : Bytes, revbuf (revbuf d) = d ∧ (revbuf d).length = d.length

/-- CHUNK answers `[N + 1, A] ++ D`, the length byte being `N + 1` exactly, up to 254 bytes, and E_CHUNK at 255; nothing
else changes (R135, R136). -/
def Obligations.ChunkFramesOrRefuses : Prop :=
  ∀ (a : Byte) (d : Bytes) (s : State),
    (d.length ≤ 254 → ∃ n : Byte, n.toNat = d.length + 1 ∧ exec (.chunk a d) s = .next (answered s (0x00#8 :: n :: a :: d)))
      ∧ (255 ≤ d.length → exec (.chunk a d) s = .next (answered s [0x10#8]))

/-! ### Whitening (41_whitening.md) -/

/-- WHITEN flips bit `k` of byte `i` exactly when the register, started at the coefficient and stepped `8 i + k` times,
has its low bit set; nothing else changes (R150). -/
def Obligations.WhitenXorsTheRegistersLowBits : Prop :=
  ∀ (c : Byte) (d : Bytes) (s : State), ∃ out : Bytes, out.length = d.length
    ∧ (∀ i k, i < d.length → k < 8 →
        (out.getD i 0#8).getLsbD k = ((d.getD i 0#8).getLsbD k ^^ (lfsrNext^[8 * i + k] c).getLsbD 0))
    ∧ exec (.whiten c d) s = .next (answered s (0x00#8 :: out))

/-- The keystream depends on the coefficient and the index only; whitening twice gives the data back; a register below
0x80 stays there, a coefficient with bit 7 set loses it in the first step, and the channels' coefficients lie below 0x80
(R151; the spec derives the last three facts from R150). -/
def Obligations.KeystreamIsIndependentOfData : Prop :=
  (∀ (d : Bytes) (c : Byte) (i : Nat), i < d.length →
      (whiten d c)[i]? = some (d.getD i 0#8 ^^^ (whiten (List.replicate d.length 0#8) c).getD i 0#8))
    ∧ (∀ (d : Bytes) (c : Byte), whiten (whiten d c) c = d)
    ∧ (∀ x : Lfsr, x.w.toNat < 0x80 → (whitenBit x).w.toNat < 0x80)
    ∧ (∀ x : Lfsr, x.w.getLsbD 7 = true → (whitenBit x).w.getLsbD 7 = false)
    ∧ ∀ i : Fin 3, 0x65 ≤ (coef i).toNat ∧ (coef i).toNat ≤ 0x67

/-- WHITENCH whitens with `(CHAN_IDX + 37) | 0x40`, which is 0x65, 0x66, 0x67 on the three indices; nothing else changes
(R153). -/
def Obligations.WhitenchUsesTheChannelsCoefficient : Prop :=
  ∀ (d : Bytes) (s : State), ∃ c : Byte, c.toNat = (s.eng.chanIdx.val + 37) ||| 0x40
    ∧ c.toNat = 0x65 + s.eng.chanIdx.val ∧ exec (.whitench d) s = .next (answered s (0x00#8 :: whiten d c))

/-! ### CRC (42_crc24.md) -/

/-- CRC24 answers what the pseudocode of R170 gives on an unbounded register masked after each byte; nothing else
changes. -/
def Obligations.Crc24IsTheUnboundedAlgorithm : Prop :=
  ∀ (poly init : U24) (d : Bytes) (s : State),
    exec (.crc24 poly init d) s = .next (answered s (0x00#8 :: wideCrc24 d poly.toNat init.toNat))

/-- CRC24 of no data answers `revbuf` of `init` from its top byte; with `poly` and `init` 0 every buffer gives three
zero bytes; the result is always 3 bytes (R172). -/
def Obligations.Crc24CornerCases : Prop :=
  (∀ (poly init : U24) (s : State), ∃ b2 b1 b0 : Byte, init = b2 ++ b1 ++ b0
      ∧ exec (.crc24 poly init []) s = .next (answered s (0x00#8 :: revbuf [b2, b1, b0])))
    ∧ (∀ (d : Bytes) (s : State),
        exec (.crc24 0#24 0#24 d) s = .next (answered s [0x00#8, 0x00#8, 0x00#8, 0x00#8]))
    ∧ ∀ (poly init : U24) (d : Bytes) (s : State), ∃ r : Bytes, r.length = 3
      ∧ exec (.crc24 poly init d) s = .next (answered s (0x00#8 :: r))

/-! ### Identity (43_identity.md) -/

/-- SETMAC stores a 6-byte buffer in index order; a shorter one is discarded and the MAC is the next free draw; a longer
one is E_RESERVED with no effect. Nothing else changes but the draw (R190). -/
def Obligations.SetmacStoresOrDraws : Prop :=
  ∀ (d : Bytes) (s : State),
    (d.length = 6 → ∃ m : Mac, [m.b0, m.b1, m.b2, m.b3, m.b4, m.b5] = d
        ∧ exec (.setmac d) s = .next (answeredWith s { s.eng with mac := m } [] [0x00#8]))
      ∧ (d.length < 6 →
          exec (.setmac d) s = .next (answeredWith (takeMac s) { s.eng with mac := nextMac s } [] [0x00#8]))
      ∧ (6 < d.length → exec (.setmac d) s = .next (answered s [0x03#8]))

/-- SETNAME stores a name of at most 18 bytes, 15 when power is shown; a longer one is E_NAME with no effect (R193). -/
def Obligations.SetnameStoresWithinTheLimit : Prop :=
  ∀ (d : Bytes) (s : State),
    (d.length ≤ (if s.eng.showPower then 15 else 18) →
        exec (.setname d) s = .next (answeredWith s { s.eng with name := some d } [] [0x00#8]))
      ∧ ((if s.eng.showPower then 15 else 18) < d.length → exec (.setname d) s = .next (answered s [0x12#8]))

/-- CLRNAME removes the name, also when there is none, and the budget regains `NAME_LEN + 2` (R196, R227). -/
def Obligations.ClrnameRegainsTheBudget : Prop :=
  ∀ s : State, ∃ t, exec .clrname s = .next t ∧ t = answeredWith s { s.eng with name := none } [] [0x00#8]
    ∧ ∀ (n : Bytes) (h : Nat), s.eng.name = some n → budget t.eng h = budget s.eng h + n.length + 2

/-- SETPWR: disabling always succeeds; enabling succeeds unless a name longer than 16 bytes is present, then E_NOROOM;
an operand over 1 is E_RESERVED. Errors have no effect (R198). -/
def Obligations.SetpwrChecksTheName : Prop :=
  ∀ (a : Byte) (s : State),
    (a = 0x00#8 → exec (.setpwr a) s = .next (answeredWith s { s.eng with showPower := false } [] [0x00#8]))
      ∧ (a = 0x01#8 → (∀ n, s.eng.name = some n → n.length ≤ 16) →
          exec (.setpwr a) s = .next (answeredWith s { s.eng with showPower := true } [] [0x00#8]))
      ∧ (a = 0x01#8 → (∃ n, s.eng.name = some n ∧ 16 < n.length) → exec (.setpwr a) s = .next (answered s [0x13#8]))
      ∧ (1 < a.toNat → exec (.setpwr a) s = .next (answered s [0x03#8]))

/-- GETCFG answers the channel index, the two flags, whether a name is present, its length, the name and the MAC, and
changes nothing (R201). -/
def Obligations.GetcfgReportsTheIdentity : Prop :=
  ∀ s : State, ∃ p n, (s.eng.name = none → p = 0x00#8 ∧ n = []) ∧ (∀ x, s.eng.name = some x → p = 0x01#8 ∧ n = x)
    ∧ exec .getcfg s = .next (answered s
        ([0x00#8, BitVec.ofNat 8 s.eng.chanIdx.val, if s.eng.showPower then 0x01#8 else 0x00#8,
            if s.eng.configured then 0x01#8 else 0x00#8, p, BitVec.ofNat 8 n.length] ++ n
          ++ [s.eng.mac.b0, s.eng.mac.b1, s.eng.mac.b2, s.eng.mac.b3, s.eng.mac.b4, s.eng.mac.b5]))

/-- A 16-byte name first and power second is accepted, and then every assembly command fails with E_BUDGET by 3 more
than its payload, `-budget(h) = h + 3` (R228, R235); power first and a 16-byte name second is E_NAME (R372). The amount 3
that R372 prints is the one of an empty payload (log 19). -/
def Obligations.NameAndPowerOrderMatters : Prop :=
  (∀ (s : State) (n : Bytes), s.eng.showPower = false → n.length = 16 →
      ∃ t u, exec (.setname n) s = .next t ∧ exec (.setpwr 0x01#8) t = .next u
        ∧ u.responses = s.responses ++ [[0x00#8], [0x00#8]] ∧ u.eng = { s.eng with name := some n, showPower := true }
        ∧ ∀ (i : Instr) (h : Nat), payloadSize i = some h → i.wellFormed = true → ∃ lo hi : Byte,
            exec i u = .next (answered u [0x11#8, lo, hi]) ∧ lo.toNat + 256 * hi.toNat = h + 3)
    ∧ ∀ (s : State) (n : Bytes), s.eng.name = none → n.length = 16 →
      ∃ t, exec (.setpwr 0x01#8) s = .next t ∧ t.responses = s.responses ++ [[0x00#8]]
        ∧ exec (.setname n) t = .next (answered t [0x12#8])

/-! ### Radio setup and assembler (44_assembler.md) -/

/-- BEGIN: when `Radio.begin` answers true it issues the 11 transactions of R220 in their order, sets the index to 0 and
CONFIGURED to 1; when it answers false, E_RADIO_INIT, and only `begin` is in the log. Nothing else changes. -/
def Obligations.BeginConfiguresTheRadio : Prop :=
  ∀ s : State,
    (nextBool s = true → exec .beginRadio s = .next (answeredWith (takeBool s)
        { s.eng with chanIdx := 0, configured := true }
        [.beginRadio true, .setCrcLength 0, .setAutoAck false, .setDynamicPayloads false,
          .setRetries Config.retryDelay 0, .setAddressWidth 4, .openTxPipe [0x71#8, 0x91#8, 0x7D#8, 0x6B#8, 0x00#8],
          .openRxPipe Config.rxPipe [0x71#8, 0x91#8, 0x7D#8, 0x6B#8, 0x00#8], .setChannel 2, .setPower true,
          .setListen true] [0x00#8]))
      ∧ (nextBool s = false →
          exec .beginRadio s = .next (answeredWith (takeBool s) s.eng [.beginRadio false] [0x20#8]))

/-- HOP moves the index 0→1→2→0 and sets the radio's channel to 26, 80, 2; three HOPs give the engine back as it was;
and nothing else changes (R222). -/
def Obligations.HopAdvancesCyclically : Prop :=
  (∀ s : State, ∃ (i : Fin 3) (n : Int),
      (s.eng.chanIdx = 0 → i = 1 ∧ n = 26) ∧ (s.eng.chanIdx = 1 → i = 2 ∧ n = 80) ∧ (s.eng.chanIdx = 2 → i = 0 ∧ n = 2)
        ∧ exec .hop s = .next (answeredWith s { s.eng with chanIdx := i } [.setChannel n] [0x00#8]))
    ∧ ∀ s : State, ∃ t u v, exec .hop s = .next t ∧ exec .hop t = .next u ∧ exec .hop u = .next v ∧ v.eng = s.eng

/-- LENAVAIL answers `18 - name2 - 3·SHOW_POWER - A` as a 16-bit two's-complement value, low byte first; on the
reachable names it is exact and lies in -260..18; nothing changes (R226–R228). -/
def Obligations.LenavailAnswersTheBudget : Prop :=
  ∀ (a : Byte) (s : State), ∃ lo hi : Byte, exec (.lenavail a) s = .next (answered s [0x00#8, lo, hi])
    ∧ (hi ++ lo : U16) = BitVec.ofInt 16 (budgetLeft s.eng a.toNat)
    ∧ (NameFits s.eng → (hi ++ lo : U16).toInt = budgetLeft s.eng a.toNat ∧ -260 ≤ budgetLeft s.eng a.toNat
        ∧ budgetLeft s.eng a.toNat ≤ 18)

/-- ASSEMBLE and ASMSEQ, where the budget suffices, answer the PDU of R232 laid out as R234 says; when power is shown
the radio's level is read, and no other transaction is issued; the engine is unchanged (R230–R235, R240, R242). -/
def Obligations.AssembleAnswersThePdu : Prop :=
  ∀ (i : Instr) (s : State) (h : Nat), payloadSize i = some h → ¬ Transmits i → 0 ≤ budgetLeft s.eng h →
    (payloadBytes i).length = h ∧ exec i s = .next (answeredWith (afterPower s) s.eng (powerEvents s)
      (0x00#8 :: referencePdu s (payloadBytes i)))

/-- ADV and ADVSEQ, where the budget suffices, read the power level when it is shown, leave receive mode, write the PDU
whitened with the current channel's coefficient and bit-reversed, and answer OK or E_RADIO_WRITE as the radio answered;
the engine is unchanged (R236, R244, R246, R331). -/
def Obligations.AdvWritesTheOnAirFrame : Prop :=
  ∀ (i : Instr) (s : State) (h : Nat), payloadSize i = some h → Transmits i → 0 ≤ budgetLeft s.eng h →
    ∃ ok : Bool, ok = nextBool (afterPower s) ∧ exec i s = .next (answeredWith (takeBool (afterPower s)) s.eng
      (powerEvents s ++ [.setListen false,
        .write (revbuf (whiten (referencePdu s (payloadBytes i)) (coef s.eng.chanIdx))) ok])
      (if ok then [0x00#8] else [0x21#8]))

/-- A PDU that passed the budget check: `12 ≤ L ≤ 30`, `L` is the length byte and the number of bytes after it, and the
whole PDU has at most 32 bytes and ends in the CRC of what precedes it (R231; the bounds are the spec's derivation). -/
def Obligations.PduLengthByteCountsWhatFollows : Prop :=
  ∀ (s : State) (payload : Bytes), 0 ≤ budgetLeft s.eng payload.length → ∃ l : Byte,
    (referencePdu s payload)[1]? = some l ∧ (l.toNat : Int) = 30 - budgetLeft s.eng payload.length
      ∧ 12 ≤ l.toNat ∧ l.toNat ≤ 30 ∧ (referencePdu s payload).length = l.toNat + 2
      ∧ (referencePdu s payload).drop (l.toNat - 1)
        = wideCrc24 ((referencePdu s payload).take (l.toNat - 1)) 0x00065B 0x555555
      ∧ pdu s.eng { h := payload.length, bytes := payload } (powerByte s) = referencePdu s payload

/-- The assembly commands raise E_BUDGET when `budget(h) < 0`, with the amount `-budget(h)`, which lies in 1..65030 in
the states whose name fits, before any radio transaction and with no other effect (R327). -/
def Obligations.OverBudgetReportsTheAmount : Prop :=
  ∀ (i : Instr) (s : State) (h : Nat), payloadSize i = some h → budgetLeft s.eng h < 0 → ∃ lo hi : Byte,
    exec i s = .next (answered s [0x11#8, lo, hi])
      ∧ (NameFits s.eng → i.wellFormed = true → (lo.toNat + 256 * hi.toNat : Int) = - budgetLeft s.eng h
          ∧ 1 ≤ - budgetLeft s.eng h ∧ - budgetLeft s.eng h ≤ 65030)

/-- A single buffer is assembled, and advertised, exactly as the sequence of its one chunk (R230, R242, R246). -/
def Obligations.SingleBufferIsTheSequenceOfItsChunk : Prop :=
  ∀ (a : Byte) (d : Bytes) (s : State), d.length ≤ 255 →
    exec (.assemble a d) s = exec (.asmseq [BitVec.ofNat 8 (d.length + 1) :: a :: d]) s
      ∧ exec (.adv a d) s = exec (.advseq [BitVec.ofNat 8 (d.length + 1) :: a :: d]) s

/-! ### Disassembler (45_disassembler.md) -/

/-- The receive front end reverses the bits of every byte and then whitens with the channel's coefficient; it undoes the
on-air frame of a PDU made on the same channel; and truncating before it or after it keeps the same bytes (R271; both
facts are the spec's derivation). -/
def Obligations.ReceiveFrontUndoesTheOnAirFrame : Prop :=
  (∀ (i : Fin 3) (raw : Bytes), rxFront i raw = whiten (revbuf raw) (coef i))
    ∧ (∀ (i : Fin 3) (p : Bytes), rxFront i (onAir i p) = p)
    ∧ ∀ (i : Fin 3) (raw : Bytes) (n : Nat), rxFront i (raw.take n) = (rxFront i raw).take n

/-- DECODE answers the record of a buffer that passes the checks of R272, and `[0x00, 0x00]` for every other; nothing
changes (R272, R285). -/
def Obligations.DecodeAcceptsWhatTheChecksPass : Prop :=
  ∀ (d : Bytes) (s : State),
    (∀ g e, Accepted (rxFront s.eng.chanIdx d) g e →
        exec (.decode d) s = .next (answered s (0x00#8 :: 0x01#8 :: encRecord (parseRecord g e))))
      ∧ ((¬ ∃ g e, Accepted (rxFront s.eng.chanIdx d) g e) → exec (.decode d) s = .next (answered s [0x00#8, 0x00#8]))

/-- The chunk walk: the MAC is bytes 2..7; every chunk of the AD region is dispatched in order; at a declared size that
is 0 or overruns, the rest is kept as one raw fragment and the walk stops. Every AD region is chunks and such a tail
(R273). -/
def Obligations.ParseWalksTheChunks : Prop :=
  (∀ ad : Bytes, ∃ (cs : List AdChunk) (tail : Bytes), (∀ c ∈ cs, AdChunkFits c) ∧ UnparsedTail tail
      ∧ ad = cs.flatMap adChunkBytes ++ tail)
    ∧ ∀ (g : Bytes) (e : Nat) (cs : List AdChunk) (tail : Bytes), 8 ≤ e → e ≤ g.length → (∀ c ∈ cs, AdChunkFits c) →
      UnparsedTail tail → (g.take e).drop 8 = cs.flatMap adChunkBytes ++ tail →
      ∃ m : Mac, [m.b0, m.b1, m.b2, m.b3, m.b4, m.b5] = (g.take 8).drop 2
        ∧ let r := cs.foldl (fun r c => dispatchChunk c.1 c.2 (adChunkBytes c) r)
            { mac := m, name := .absent, power := none, data := [] }
          parseRecord g e = if tail = [] then r else { r with data := r.data ++ [.raw tail] }

/-- One chunk, by its type: flags ignored; power of one byte; name as text or raw; service data by its UUID; everything
else a raw fragment of the whole chunk (R274, R276). -/
def Obligations.ChunkTypesAreDispatched : Prop :=
  ∀ (t : Byte) (body whole : Bytes) (r : Record),
    (t = 0x01#8 → dispatchChunk t body whole r = r)
      ∧ (t = 0x0A#8 → ∀ v, body = [v] → dispatchChunk t body whole r = { r with power := some v })
      ∧ (t = 0x0A#8 → body.length ≠ 1 → dispatchChunk t body whole r = { r with data := r.data ++ [.raw whole] })
      ∧ (t = 0x08#8 → validUtf8 body = true → dispatchChunk t body whole r = { r with name := .text body })
      ∧ (t = 0x08#8 → validUtf8 body = false → dispatchChunk t body whole r = { r with name := .raw body })
      ∧ (t = 0x16#8 → ∀ u0 u1 rest k, body = u0 :: u1 :: rest → svcKind (u1 ++ u0) = some k →
          dispatchChunk t body whole r = { r with data := r.data ++ [.svc (u1 ++ u0) k rest] })
      ∧ (t = 0x16#8 → ∀ u0 u1 rest, body = u0 :: u1 :: rest → svcKind (u1 ++ u0) = none →
          dispatchChunk t body whole r = { r with data := r.data ++ [.raw whole] })
      ∧ (t = 0x16#8 → body.length < 2 → dispatchChunk t body whole r = { r with data := r.data ++ [.raw whole] })
      ∧ (t ≠ 0x01#8 → t ≠ 0x0A#8 → t ≠ 0x08#8 → t ≠ 0x16#8 →
          dispatchChunk t body whole r = { r with data := r.data ++ [.raw whole] })

/-- The service kinds: battery for 0x180F; else temperature, else URL, for the two open UUIDs; else none; and the bytes
after a recognised UUID are kept as they are (R276). That `P_UUID_TEMPERATURE` has the kind temperature and `P_UUID_URL`
the kind URL is not R276's: it rests on the two being distinct from each other and from 0x180F, which D18 of
92_eei_decisions.md assumes and which is the model's choice of log 7. -/
def Obligations.ServiceKindsFollowTheUuid : Prop :=
  (∀ u : U16, svcKind u = if u = 0x180F#16 then some .battery else if u = uuidTemperature then some .temperature
      else if u = uuidUrl then some .url else none)
    ∧ svcKind uuidTemperature = some .temperature ∧ svcKind uuidUrl = some .url
    ∧ ∀ (u0 u1 : Byte) (rest whole : Bytes) (k : SvcKind) (r : Record), svcKind (u1 ++ u0) = some k →
      (dispatchChunk 0x16#8 (u0 :: u1 :: rest) whole r).data = r.data ++ [.svc (u1 ++ u0) k rest]

/-- A byte string is valid UTF-8 exactly when it is a concatenation of well-formed sequences, each a row of the table;
and a name that is valid is kept as the same bytes (R275, whose table the spec takes from general knowledge; log 13). -/
def Obligations.Utf8IsTheTablesConcatenations : Prop :=
  (∀ b : Bytes, validUtf8 b = true ↔ ∃ l : List Bytes, (∀ x ∈ l, Utf8Sequence x) ∧ b = l.flatten)
    ∧ ∀ (b whole : Bytes) (r : Record), validUtf8 b = true → (dispatchChunk 0x08#8 b whole r).name = .text b

/-- POLL: with nothing ready, one transaction and the queue's answer; with a payload ready, three transactions, and the
record of an accepted buffer is appended to the queue; the answer is 1 exactly when the queue is then non-empty. Nothing
else changes (R280). -/
def Obligations.PollReceivesAtMostOneFrame : Prop :=
  ∀ s : State,
    (nextBool s = false → exec .poll s = .next (answeredWith (takeBool s) s.eng [.available false]
        [0x00#8, if s.eng.rxq = [] then 0x00#8 else 0x01#8]))
      ∧ (nextBool s = true → ∃ (n : Byte) (raw : Bytes) (q : List Record), n = nextByte (takeBool s)
          ∧ raw = nextBytes (takeByte (takeBool s))
          ∧ (∀ g e, Accepted (rxFront s.eng.chanIdx raw) g e → q = s.eng.rxq ++ [parseRecord g e])
          ∧ ((¬ ∃ g e, Accepted (rxFront s.eng.chanIdx raw) g e) → q = s.eng.rxq)
          ∧ exec .poll s = .next (answeredWith (takeBytes (takeByte (takeBool s))) { s.eng with rxq := q }
              [.available true, .getPayloadSize n, .read n raw] [0x00#8, if q = [] then 0x00#8 else 0x01#8]))

/-- READ pops and answers the oldest record, and `[0x00, 0x00]` from an empty queue; nothing else changes (R283). -/
def Obligations.ReadPopsTheOldestRecord : Prop :=
  ∀ s : State, (s.eng.rxq = [] → exec .read s = .next (answered s [0x00#8, 0x00#8]))
    ∧ ∀ r q, s.eng.rxq = r :: q →
      exec .read s = .next (answeredWith s { s.eng with rxq := q } [] (0x00#8 :: 0x01#8 :: encRecord r))

/-- The response encoding loses nothing of a record a validated PDU gives: such a record has the sizes a validated PDU
allows, and two records of those sizes with the same encoding are the same (R286, D21). -/
def Obligations.RecordEncodingIsInjective : Prop :=
  (∀ r : Record, ValidatedRecord r → RecordFits r)
    ∧ ∀ r r' : Record, RecordFits r → RecordFits r' → encRecord r = encRecord r' → r = r'

/-- The record encoding of READ and DECODE, field by field: MAC, name, power, item count and items; every length byte is
the length (R286; that it fits one byte is the spec's derivation). -/
def Obligations.RecordEncodingLayout : Prop :=
  ∀ r : Record, RecordFits r → ∃ (name power : Bytes) (count : Byte),
    encRecord r = [r.mac.b0, r.mac.b1, r.mac.b2, r.mac.b3, r.mac.b4, r.mac.b5] ++ name ++ power
        ++ count :: r.data.flatMap encItem
      ∧ (r.name = .absent → name = [0x00#8])
      ∧ (∀ b, r.name = .text b → ∃ l : Byte, l.toNat = b.length ∧ name = 0x01#8 :: l :: b)
      ∧ (∀ b, r.name = .raw b → ∃ l : Byte, l.toNat = b.length ∧ name = 0x02#8 :: l :: b)
      ∧ (r.power = none → power = [0x00#8]) ∧ (∀ v, r.power = some v → power = [0x01#8, v])
      ∧ count.toNat = r.data.length
      ∧ ∀ x ∈ r.data, (∀ b, x = .raw b → ∃ l : Byte, l.toNat = b.length ∧ encItem x = 0x00#8 :: l :: b)
        ∧ ∀ u k b, x = .svc u k b → ∃ lo hi kc l : Byte, u = hi ++ lo ∧ (k = .battery → kc = 0x01#8)
          ∧ (k = .temperature → kc = 0x02#8) ∧ (k = .url → kc = 0x03#8) ∧ l.toNat = b.length
          ∧ encItem x = 0x01#8 :: lo :: hi :: kc :: l :: b

/-- A buffer whose length byte is 30 or more is dropped, by DECODE and by POLL. A full-budget PDU has the length byte
30, so its own frame is among them, on the same channel (R373, which the spec derives from R231 and R272). -/
def Obligations.FullBudgetPduIsNeverAccepted : Prop :=
  (∀ (s : State) (d : Bytes) (l : Byte), (rxFront s.eng.chanIdx d)[1]? = some l → 30 ≤ l.toNat →
      exec (.decode d) s = .next (answered s [0x00#8, 0x00#8])
        ∧ (nextBool s = true → nextBytes (takeByte (takeBool s)) = d → ∃ t, exec .poll s = .next t ∧ t.eng = s.eng))
    ∧ ∀ (s u : State) (payload : Bytes), budgetLeft s.eng payload.length = 0 → u.eng.chanIdx = s.eng.chanIdx →
      (referencePdu s payload)[1]? = some 30#8
        ∧ exec (.decode (onAir s.eng.chanIdx (referencePdu s payload))) u = .next (answered u [0x00#8, 0x00#8])

/-- The round trip: with no name and no power, a payload of at most 17 bytes that concatenates well-formed chunks of
types other than 0x01, 0x08, 0x0A is assembled by ASMSEQ into a PDU whose on-air frame DECODE, on the same channel,
turns into the record with the sender's MAC, no name, no power and one item for each chunk, in order; framing the items
again gives the payload back. A payload of 18 bytes is dropped (R287, which the spec derives; 90_conflicts.md C1). -/
def Obligations.PduRoundTrip : Prop :=
  (∀ (s u : State) (seq : List Bytes) (cs : List AdChunk), s.eng.name = none → s.eng.showPower = false →
      u.eng.chanIdx = s.eng.chanIdx →
      (∀ c ∈ cs, AdChunkFits c ∧ c.1 ≠ 0x01#8 ∧ c.1 ≠ 0x08#8 ∧ c.1 ≠ 0x0A#8) →
      seq.flatten = cs.flatMap adChunkBytes → seq.flatten.length ≤ 17 →
      ∃ p, exec (.asmseq seq) s = .next (answered s (0x00#8 :: p))
        ∧ exec (.decode (onAir s.eng.chanIdx p)) u = .next (answered u (0x00#8 :: 0x01#8 :: encRecord
            { mac := s.eng.mac, name := .absent, power := none, data := cs.map expectedItem }))
        ∧ (cs.map expectedItem).flatMap rechunk = seq.flatten)
    ∧ ∀ (s u : State) (seq : List Bytes), s.eng.name = none → s.eng.showPower = false →
      u.eng.chanIdx = s.eng.chanIdx → seq.flatten.length = 18 →
      ∃ p, exec (.asmseq seq) s = .next (answered s (0x00#8 :: p)) ∧ p[1]? = some 30#8
        ∧ exec (.decode (onAir s.eng.chanIdx p)) u = .next (answered u [0x00#8, 0x00#8])

/-- What one engine advertises another on the same channel receives: the frame ADV or ADVSEQ writes, read by a POLL,
appends one record with the sender's MAC to the receiver's queue, when the payload leaves a byte of the budget unused
(R231, R235, R236, R272, R280, R373). -/
def Obligations.AdvertisedFrameIsReceived : Prop :=
  ∀ (s t u : State) (i : Instr) (h : Nat) (f : Bytes) (ok : Bool), payloadSize i = some h → Transmits i →
    0 < budgetLeft s.eng h → exec i s = .next t → t.radioLog.getLast? = some (.write f ok) →
    u.eng.chanIdx = s.eng.chanIdx → nextBool u = true → nextBytes (takeByte (takeBool u)) = f →
    ∃ v r, exec .poll u = .next v ∧ v.eng = { u.eng with rxq := u.eng.rxq ++ [r] } ∧ r.mac = s.eng.mac
      ∧ v.responses = u.responses ++ [[0x00#8, 0x01#8]]

/-! ### Reset and the invariant (10_state.md, 70_reset_and_hazards.md) -/

/-- Reset: index 0, a drawn MAC, no name, power off, not configured, empty queue, host counter 0, empty radio log
(R360). That the MAC is draw number 0 is the model's choice (log 5); the draw's value is free. -/
def Obligations.ResetLeavesTheStatedValues : Prop :=
  State.reset.eng.chanIdx = 0 ∧ State.reset.eng.mac = Config.freeMac 0 ∧ State.reset.eng.name = none ∧ State.reset.eng.showPower = false
    ∧ State.reset.eng.configured = false ∧ State.reset.eng.rxq = [] ∧ State.reset.hpc = 0 ∧ State.reset.radioLog = []

/-- The invariant holds at reset. The name and the queue are as R44 and R360 leave them; that the host counter is the
number of responses (R42) rests there on the empty response channel, which is the model's choice (log 5). -/
def Obligations.InvariantHoldsAtReset : Prop := Invariant State.reset

/-- Every step keeps the invariant: the name has at most 18 bytes, and at most 16 while power is shown; every queued
record is one a validated PDU gives, the parse of a buffer that passed the receive checks; the host counter counts the
responses (R33, R36, R42, R272, R273). -/
def Obligations.EveryStepKeepsTheInvariant : Prop := ∀ s t : State, Invariant s → step s = .next t → Invariant t
end

