-- ==== Sys2Proof/Laws/State.lean ====
section
/-! SUPPORT. One lemma for each field of State under each update of Machine/Ops.lean, so that no later proof unfolds a record
update. -/

namespace Sys2Proof.Machine

/-! ### The composite operations, as the updates they are made of -/

@[simp] theorem respondOk_eq (r : Bytes) (s : State) : respondOk r s = respond (statusOk :: r) s := rfl

@[simp] theorem raiseErr_eq (e : Err) (s : State) : raiseErr e s = respond (errResponse e) s := rfl

@[simp] theorem radioBegin_eq (s : State) : radioBegin s = logEvents [.beginRadio (nextBool s)] (takeBool s) := rfl

@[simp] theorem radioGetPaLevel_eq (s : State) : radioGetPaLevel s = logEvents [.getPaLevel (nextByte s)] (takeByte s) := rfl

@[simp] theorem radioSetListen_eq (b : Bool) (s : State) : radioSetListen b s = logEvents [.setListen b] s := rfl

@[simp] theorem radioSetChannel_eq (n : Int) (s : State) : radioSetChannel n s = logEvents [.setChannel n] s := rfl

@[simp] theorem radioWrite_eq (f : Bytes) (s : State) :
    radioWrite f s = logEvents [.write f (nextBool s)] (takeBool s) := rfl

@[simp] theorem radioAvailable_eq (s : State) : radioAvailable s = logEvents [.available (nextBool s)] (takeBool s) := rfl

@[simp] theorem radioGetPayloadSize_eq (s : State) :
    radioGetPayloadSize s = logEvents [.getPayloadSize (nextByte s)] (takeByte s) := rfl

@[simp] theorem radioRead_eq (n : Byte) (s : State) :
    radioRead n s = logEvents [.read n (nextBytes s)] (takeBytes s) := rfl

/-! ### Fields under updates -/

@[simp] theorem respond_eng (r : Bytes) (s : State) : (respond r s).eng = s.eng := rfl

@[simp] theorem respond_hpc (r : Bytes) (s : State) : (respond r s).hpc = s.hpc + 1 := rfl

@[simp] theorem respond_cmdIn (r : Bytes) (s : State) : (respond r s).cmdIn = s.cmdIn := rfl

@[simp] theorem respond_responses (r : Bytes) (s : State) : (respond r s).responses = s.responses ++ [r] := rfl

@[simp] theorem respond_radioLog (r : Bytes) (s : State) : (respond r s).radioLog = s.radioLog := rfl

@[simp] theorem respond_feed (r : Bytes) (s : State) : (respond r s).feed = s.feed := rfl

@[simp] theorem respond_draws (r : Bytes) (s : State) : (respond r s).draws = s.draws := rfl

@[simp] theorem dropFrame_eng (s : State) : (dropFrame s).eng = s.eng := rfl

@[simp] theorem dropFrame_hpc (s : State) : (dropFrame s).hpc = s.hpc := rfl

@[simp] theorem dropFrame_cmdIn (s : State) : (dropFrame s).cmdIn = s.cmdIn.tail := rfl

@[simp] theorem dropFrame_responses (s : State) : (dropFrame s).responses = s.responses := rfl

@[simp] theorem dropFrame_radioLog (s : State) : (dropFrame s).radioLog = s.radioLog := rfl

@[simp] theorem dropFrame_feed (s : State) : (dropFrame s).feed = s.feed := rfl

@[simp] theorem dropFrame_draws (s : State) : (dropFrame s).draws = s.draws := rfl

@[simp] theorem logEvents_eng (es : List RadioEvent) (s : State) : (logEvents es s).eng = s.eng := rfl

@[simp] theorem logEvents_hpc (es : List RadioEvent) (s : State) : (logEvents es s).hpc = s.hpc := rfl

@[simp] theorem logEvents_cmdIn (es : List RadioEvent) (s : State) : (logEvents es s).cmdIn = s.cmdIn := rfl

@[simp] theorem logEvents_responses (es : List RadioEvent) (s : State) : (logEvents es s).responses = s.responses := rfl

@[simp] theorem logEvents_radioLog (es : List RadioEvent) (s : State) : (logEvents es s).radioLog = s.radioLog ++ es := rfl

@[simp] theorem logEvents_feed (es : List RadioEvent) (s : State) : (logEvents es s).feed = s.feed := rfl

@[simp] theorem logEvents_draws (es : List RadioEvent) (s : State) : (logEvents es s).draws = s.draws := rfl

@[simp] theorem takeBool_eng (s : State) : (takeBool s).eng = s.eng := rfl

@[simp] theorem takeBool_hpc (s : State) : (takeBool s).hpc = s.hpc := rfl

@[simp] theorem takeBool_cmdIn (s : State) : (takeBool s).cmdIn = s.cmdIn := rfl

@[simp] theorem takeBool_responses (s : State) : (takeBool s).responses = s.responses := rfl

@[simp] theorem takeBool_radioLog (s : State) : (takeBool s).radioLog = s.radioLog := rfl

@[simp] theorem takeBool_feed (s : State) : (takeBool s).feed = { s.feed with bools := s.feed.bools.tail } := rfl

@[simp] theorem takeBool_draws (s : State) : (takeBool s).draws = s.draws + 1 := rfl

@[simp] theorem takeByte_eng (s : State) : (takeByte s).eng = s.eng := rfl

@[simp] theorem takeByte_hpc (s : State) : (takeByte s).hpc = s.hpc := rfl

@[simp] theorem takeByte_cmdIn (s : State) : (takeByte s).cmdIn = s.cmdIn := rfl

@[simp] theorem takeByte_responses (s : State) : (takeByte s).responses = s.responses := rfl

@[simp] theorem takeByte_radioLog (s : State) : (takeByte s).radioLog = s.radioLog := rfl

@[simp] theorem takeByte_feed (s : State) : (takeByte s).feed = { s.feed with bytes := s.feed.bytes.tail } := rfl

@[simp] theorem takeByte_draws (s : State) : (takeByte s).draws = s.draws + 1 := rfl

@[simp] theorem takeBytes_eng (s : State) : (takeBytes s).eng = s.eng := rfl

@[simp] theorem takeBytes_hpc (s : State) : (takeBytes s).hpc = s.hpc := rfl

@[simp] theorem takeBytes_cmdIn (s : State) : (takeBytes s).cmdIn = s.cmdIn := rfl

@[simp] theorem takeBytes_responses (s : State) : (takeBytes s).responses = s.responses := rfl

@[simp] theorem takeBytes_radioLog (s : State) : (takeBytes s).radioLog = s.radioLog := rfl

@[simp] theorem takeBytes_feed (s : State) : (takeBytes s).feed = { s.feed with bufs := s.feed.bufs.tail } := rfl

@[simp] theorem takeBytes_draws (s : State) : (takeBytes s).draws = s.draws + 1 := rfl

@[simp] theorem takeMac_eng (s : State) : (takeMac s).eng = s.eng := rfl

@[simp] theorem takeMac_hpc (s : State) : (takeMac s).hpc = s.hpc := rfl

@[simp] theorem takeMac_cmdIn (s : State) : (takeMac s).cmdIn = s.cmdIn := rfl

@[simp] theorem takeMac_responses (s : State) : (takeMac s).responses = s.responses := rfl

@[simp] theorem takeMac_radioLog (s : State) : (takeMac s).radioLog = s.radioLog := rfl

@[simp] theorem takeMac_feed (s : State) : (takeMac s).feed = { s.feed with macs := s.feed.macs.tail } := rfl

@[simp] theorem takeMac_draws (s : State) : (takeMac s).draws = s.draws + 1 := rfl

@[simp] theorem setChanIdx_chanIdx (i : Fin 3) (s : State) : (setChanIdx i s).eng.chanIdx = i := rfl

@[simp] theorem setChanIdx_mac (i : Fin 3) (s : State) : (setChanIdx i s).eng.mac = s.eng.mac := rfl

@[simp] theorem setChanIdx_name (i : Fin 3) (s : State) : (setChanIdx i s).eng.name = s.eng.name := rfl

@[simp] theorem setChanIdx_showPower (i : Fin 3) (s : State) : (setChanIdx i s).eng.showPower = s.eng.showPower := rfl

@[simp] theorem setChanIdx_configured (i : Fin 3) (s : State) : (setChanIdx i s).eng.configured = s.eng.configured := rfl

@[simp] theorem setChanIdx_rxq (i : Fin 3) (s : State) : (setChanIdx i s).eng.rxq = s.eng.rxq := rfl

@[simp] theorem setChanIdx_hpc (i : Fin 3) (s : State) : (setChanIdx i s).hpc = s.hpc := rfl

@[simp] theorem setChanIdx_cmdIn (i : Fin 3) (s : State) : (setChanIdx i s).cmdIn = s.cmdIn := rfl

@[simp] theorem setChanIdx_responses (i : Fin 3) (s : State) : (setChanIdx i s).responses = s.responses := rfl

@[simp] theorem setChanIdx_radioLog (i : Fin 3) (s : State) : (setChanIdx i s).radioLog = s.radioLog := rfl

@[simp] theorem setChanIdx_feed (i : Fin 3) (s : State) : (setChanIdx i s).feed = s.feed := rfl

@[simp] theorem setChanIdx_draws (i : Fin 3) (s : State) : (setChanIdx i s).draws = s.draws := rfl

@[simp] theorem setMac_chanIdx (m : Mac) (s : State) : (setMac m s).eng.chanIdx = s.eng.chanIdx := rfl

@[simp] theorem setMac_mac (m : Mac) (s : State) : (setMac m s).eng.mac = m := rfl

@[simp] theorem setMac_name (m : Mac) (s : State) : (setMac m s).eng.name = s.eng.name := rfl

@[simp] theorem setMac_showPower (m : Mac) (s : State) : (setMac m s).eng.showPower = s.eng.showPower := rfl

@[simp] theorem setMac_configured (m : Mac) (s : State) : (setMac m s).eng.configured = s.eng.configured := rfl

@[simp] theorem setMac_rxq (m : Mac) (s : State) : (setMac m s).eng.rxq = s.eng.rxq := rfl

@[simp] theorem setMac_hpc (m : Mac) (s : State) : (setMac m s).hpc = s.hpc := rfl

@[simp] theorem setMac_cmdIn (m : Mac) (s : State) : (setMac m s).cmdIn = s.cmdIn := rfl

@[simp] theorem setMac_responses (m : Mac) (s : State) : (setMac m s).responses = s.responses := rfl

@[simp] theorem setMac_radioLog (m : Mac) (s : State) : (setMac m s).radioLog = s.radioLog := rfl

@[simp] theorem setMac_feed (m : Mac) (s : State) : (setMac m s).feed = s.feed := rfl

@[simp] theorem setMac_draws (m : Mac) (s : State) : (setMac m s).draws = s.draws := rfl

@[simp] theorem setName_chanIdx (n : Option Bytes) (s : State) : (setName n s).eng.chanIdx = s.eng.chanIdx := rfl

@[simp] theorem setName_mac (n : Option Bytes) (s : State) : (setName n s).eng.mac = s.eng.mac := rfl

@[simp] theorem setName_name (n : Option Bytes) (s : State) : (setName n s).eng.name = n := rfl

@[simp] theorem setName_showPower (n : Option Bytes) (s : State) : (setName n s).eng.showPower = s.eng.showPower := rfl

@[simp] theorem setName_configured (n : Option Bytes) (s : State) : (setName n s).eng.configured = s.eng.configured := rfl

@[simp] theorem setName_rxq (n : Option Bytes) (s : State) : (setName n s).eng.rxq = s.eng.rxq := rfl

@[simp] theorem setName_hpc (n : Option Bytes) (s : State) : (setName n s).hpc = s.hpc := rfl

@[simp] theorem setName_cmdIn (n : Option Bytes) (s : State) : (setName n s).cmdIn = s.cmdIn := rfl

@[simp] theorem setName_responses (n : Option Bytes) (s : State) : (setName n s).responses = s.responses := rfl

@[simp] theorem setName_radioLog (n : Option Bytes) (s : State) : (setName n s).radioLog = s.radioLog := rfl

@[simp] theorem setName_feed (n : Option Bytes) (s : State) : (setName n s).feed = s.feed := rfl

@[simp] theorem setName_draws (n : Option Bytes) (s : State) : (setName n s).draws = s.draws := rfl

@[simp] theorem setShowPower_chanIdx (b : Bool) (s : State) : (setShowPower b s).eng.chanIdx = s.eng.chanIdx := rfl

@[simp] theorem setShowPower_mac (b : Bool) (s : State) : (setShowPower b s).eng.mac = s.eng.mac := rfl

@[simp] theorem setShowPower_name (b : Bool) (s : State) : (setShowPower b s).eng.name = s.eng.name := rfl

@[simp] theorem setShowPower_showPower (b : Bool) (s : State) : (setShowPower b s).eng.showPower = b := rfl

@[simp] theorem setShowPower_configured (b : Bool) (s : State) : (setShowPower b s).eng.configured = s.eng.configured := rfl

@[simp] theorem setShowPower_rxq (b : Bool) (s : State) : (setShowPower b s).eng.rxq = s.eng.rxq := rfl

@[simp] theorem setShowPower_hpc (b : Bool) (s : State) : (setShowPower b s).hpc = s.hpc := rfl

@[simp] theorem setShowPower_cmdIn (b : Bool) (s : State) : (setShowPower b s).cmdIn = s.cmdIn := rfl

@[simp] theorem setShowPower_responses (b : Bool) (s : State) : (setShowPower b s).responses = s.responses := rfl

@[simp] theorem setShowPower_radioLog (b : Bool) (s : State) : (setShowPower b s).radioLog = s.radioLog := rfl

@[simp] theorem setShowPower_feed (b : Bool) (s : State) : (setShowPower b s).feed = s.feed := rfl

@[simp] theorem setShowPower_draws (b : Bool) (s : State) : (setShowPower b s).draws = s.draws := rfl

@[simp] theorem setConfigured_chanIdx (b : Bool) (s : State) : (setConfigured b s).eng.chanIdx = s.eng.chanIdx := rfl

@[simp] theorem setConfigured_mac (b : Bool) (s : State) : (setConfigured b s).eng.mac = s.eng.mac := rfl

@[simp] theorem setConfigured_name (b : Bool) (s : State) : (setConfigured b s).eng.name = s.eng.name := rfl

@[simp] theorem setConfigured_showPower (b : Bool) (s : State) : (setConfigured b s).eng.showPower = s.eng.showPower := rfl

@[simp] theorem setConfigured_configured (b : Bool) (s : State) : (setConfigured b s).eng.configured = b := rfl

@[simp] theorem setConfigured_rxq (b : Bool) (s : State) : (setConfigured b s).eng.rxq = s.eng.rxq := rfl

@[simp] theorem setConfigured_hpc (b : Bool) (s : State) : (setConfigured b s).hpc = s.hpc := rfl

@[simp] theorem setConfigured_cmdIn (b : Bool) (s : State) : (setConfigured b s).cmdIn = s.cmdIn := rfl

@[simp] theorem setConfigured_responses (b : Bool) (s : State) : (setConfigured b s).responses = s.responses := rfl

@[simp] theorem setConfigured_radioLog (b : Bool) (s : State) : (setConfigured b s).radioLog = s.radioLog := rfl

@[simp] theorem setConfigured_feed (b : Bool) (s : State) : (setConfigured b s).feed = s.feed := rfl

@[simp] theorem setConfigured_draws (b : Bool) (s : State) : (setConfigured b s).draws = s.draws := rfl

@[simp] theorem setRxq_chanIdx (q : List Record) (s : State) : (setRxq q s).eng.chanIdx = s.eng.chanIdx := rfl

@[simp] theorem setRxq_mac (q : List Record) (s : State) : (setRxq q s).eng.mac = s.eng.mac := rfl

@[simp] theorem setRxq_name (q : List Record) (s : State) : (setRxq q s).eng.name = s.eng.name := rfl

@[simp] theorem setRxq_showPower (q : List Record) (s : State) : (setRxq q s).eng.showPower = s.eng.showPower := rfl

@[simp] theorem setRxq_configured (q : List Record) (s : State) : (setRxq q s).eng.configured = s.eng.configured := rfl

@[simp] theorem setRxq_rxq (q : List Record) (s : State) : (setRxq q s).eng.rxq = q := rfl

@[simp] theorem setRxq_hpc (q : List Record) (s : State) : (setRxq q s).hpc = s.hpc := rfl

@[simp] theorem setRxq_cmdIn (q : List Record) (s : State) : (setRxq q s).cmdIn = s.cmdIn := rfl

@[simp] theorem setRxq_responses (q : List Record) (s : State) : (setRxq q s).responses = s.responses := rfl

@[simp] theorem setRxq_radioLog (q : List Record) (s : State) : (setRxq q s).radioLog = s.radioLog := rfl

@[simp] theorem setRxq_feed (q : List Record) (s : State) : (setRxq q s).feed = s.feed := rfl

@[simp] theorem setRxq_draws (q : List Record) (s : State) : (setRxq q s).draws = s.draws := rfl

end Sys2Proof.Machine
end

