-- ==== Sys2Proof/Laws/Bits.lean ====
section
/-! SUPPORT. What the pure functions of Machine/Bits.lean do (R130–R135, R150–R153, R170). -/

namespace Sys2Proof.Machine

/-! ### Bit reversal -/

theorem rev8_bit (b : Byte) {i : Nat} (h : i < 8) : (rev8 b).getLsbD (7 - i) = b.getLsbD i := by
  have hi : 8 - 1 - (7 - i) = i := by omega
  rw [rev8, BitVec.getLsbD_reverse, BitVec.getMsbD, hi]
  simp; omega

@[simp] theorem rev8_rev8 (b : Byte) : rev8 (rev8 b) = b := BitVec.reverse_reverse_eq

@[simp] theorem revbuf_length (d : Bytes) : (revbuf d).length = d.length := by simp [revbuf]

@[simp] theorem revbuf_revbuf (d : Bytes) : revbuf (revbuf d) = d := by
  simp [revbuf, Function.comp_def]

theorem revbuf_take (d : Bytes) (n : Nat) : revbuf (d.take n) = (revbuf d).take n := by simp [revbuf]

theorem revbuf_getElem (d : Bytes) (i : Nat) (h : i < (revbuf d).length) :
    (revbuf d)[i] = rev8 (d[i]'(by simpa using h)) := by simp [revbuf]

/-! ### Whitening -/

theorem whitenByte_register : ∀ w : Byte, (whitenByte w).w = lfsrNext^[8] w := by decide +kernel

theorem whitenByte_mask : ∀ w : Byte, ∀ k : Fin 8, (whitenByte w).res.getLsbD k.val = (lfsrNext^[k.val] w).getLsbD 0 := by
  decide +kernel

@[simp] theorem whiten_nil (c : Byte) : whiten [] c = [] := rfl

@[simp] theorem whiten_cons (b : Byte) (d : Bytes) (c : Byte) :
    whiten (b :: d) c = (b ^^^ (whitenByte c).res) :: whiten d (whitenByte c).w := rfl

@[simp] theorem whiten_length (d : Bytes) (c : Byte) : (whiten d c).length = d.length := by
  induction d generalizing c with
  | nil => rfl
  | cons b d ih => simp [ih]

@[simp] theorem whiten_whiten (d : Bytes) (c : Byte) : whiten (whiten d c) c = d := by
  induction d generalizing c with
  | nil => rfl
  | cons b d ih => simp [ih]

theorem whiten_take (d : Bytes) (c : Byte) (n : Nat) : whiten (d.take n) c = (whiten d c).take n := by
  induction d generalizing c n with
  | nil => simp
  | cons b d ih => cases n <;> simp [ih]

/-- The keystream of a coefficient, byte by byte: `whiten` of zeros (R151). -/
theorem whiten_getElem_xor (d z : Bytes) (c : Byte) (i : Nat) (hz : ∀ b ∈ z, b = 0x00#8) (hl : z.length = d.length)
    (h : i < (whiten d c).length) :
    (whiten d c)[i] = d[i]'(by simpa using h) ^^^ (whiten z c)[i]'(by simpa [hl] using h) := by
  induction d generalizing c i z with
  | nil => simp at h
  | cons b d ih =>
    match z, hl with
    | y :: z, hl =>
      have hy : y = 0x00#8 := hz y (by simp)
      have hz' : ∀ b ∈ z, b = 0x00#8 := fun b hb => hz b (by simp [hb])
      cases i with
      | zero => simp [hy]
      | succ i => simpa using ih z (whitenByte c).w i hz' (by simpa using hl) (by simpa using h)

/-- Bit `k` of byte `i` is flipped exactly when the register, `8 i + k` steps on, has its low bit set (R150). -/
theorem whiten_bit (d : Bytes) (c : Byte) (i k : Nat) (h : i < (whiten d c).length) (hk : k < 8) :
    ((whiten d c)[i]).getLsbD k
      = ((d[i]'(by simpa using h)).getLsbD k ^^ (lfsrNext^[8 * i + k] c).getLsbD 0) := by
  induction d generalizing c i with
  | nil => simp at h
  | cons b d ih =>
    cases i with
    | zero => simpa using congrArg (b.getLsbD k ^^ ·) (whitenByte_mask c ⟨k, hk⟩)
    | succ i =>
      have e : 8 * (i + 1) + k = (8 * i + k) + 8 := by omega
      simpa [e, Function.iterate_add_apply, ← whitenByte_register] using
        ih (whitenByte c).w i (by simpa using h)

/-! ### CRC -/

@[simp] theorem crc24_length (d : Bytes) (p i : U24) : (crc24 d p i).length = 3 := rfl

@[simp] theorem crcBle_length (d : Bytes) : (crcBle d).length = 3 := rfl

theorem crcRegister_append (d e : Bytes) (p i : U24) : crcRegister (d ++ e) p i = crcRegister e p (crcRegister d p i) := by
  simp [crcRegister]

theorem crcByte_zero_poly (b : Byte) : crcByte 0#24 0#24 b = 0#24 := by
  revert b; decide +kernel

theorem crcRegister_zero (d : Bytes) : crcRegister d 0#24 0#24 = 0#24 := by
  induction d with
  | nil => rfl
  | cons b d ih => simpa [crcRegister, crcByte_zero_poly] using ih

/-- The 24-bit register and the unbounded one agree modulo `2 ^ 24` after each bit-step (R170). -/
theorem wideCrcBit_low (p x : Nat) :
    BitVec.ofNat 24 (wideCrcBit p x) = crcBit (BitVec.ofNat 24 p) (BitVec.ofNat 24 x) := by
  have hb : (BitVec.ofNat 24 x).getLsbD 23 = x.testBit 23 := by rw [BitVec.getLsbD_ofNat]; simp
  unfold wideCrcBit crcBit
  rw [hb]
  split <;> (apply BitVec.eq_of_toNat_eq; simp [Nat.shiftLeft_eq])

theorem wideCrcBits_low (p n x : Nat) :
    BitVec.ofNat 24 ((wideCrcBit p)^[n] x) = (crcBit (BitVec.ofNat 24 p))^[n] (BitVec.ofNat 24 x) := by
  induction n generalizing x with
  | zero => rfl
  | succ n ih => simp only [Function.iterate_succ_apply, ih, wideCrcBit_low]

/-- One data byte on the unbounded register, seen through its low 24 bits. -/
theorem wideCrcByte_low (p x : Nat) (b : Byte) :
    BitVec.ofNat 24 (wideCrcByte p x b) = crcByte (BitVec.ofNat 24 p) (BitVec.ofNat 24 x) b := by
  have mask : ∀ n : Nat, BitVec.ofNat 24 (n &&& 0xFFFFFF) = BitVec.ofNat 24 n := by
    intro n
    rw [show (0xFFFFFF : Nat) = 2 ^ 24 - 1 from rfl, Nat.and_two_pow_sub_one_eq_mod]
    apply BitVec.eq_of_toNat_eq; simp
  have start : BitVec.ofNat 24 (x ^^^ ((rev8 b).toNat <<< 16)) = BitVec.ofNat 24 x ^^^ ((rev8 b).setWidth 24 <<< 16) := by
    apply BitVec.eq_of_toNat_eq
    simp [Nat.shiftLeft_eq]
  rw [wideCrcByte, mask, wideCrcBits_low, start]; rfl

theorem wideCrcByte_lt (p x : Nat) (b : Byte) : wideCrcByte p x b < 2 ^ 24 := by
  have := Nat.and_le_right (n := (wideCrcBit p)^[8] (x ^^^ ((rev8 b).toNat <<< 16))) (m := 0xFFFFFF)
  unfold wideCrcByte; omega

/-- The unbounded register masked after each byte holds what the 24-bit register holds (R170). -/
theorem wideCrc_register (d : Bytes) (p x : Nat) (hx : x < 2 ^ 24) :
    d.foldl (wideCrcByte p) x = (crcRegister d (BitVec.ofNat 24 p) (BitVec.ofNat 24 x)).toNat := by
  induction d generalizing x with
  | nil => simp [crcRegister]; omega
  | cons b d ih => simpa [crcRegister, wideCrcByte_low] using ih (wideCrcByte p x b) (wideCrcByte_lt p x b)

/-- `crc24` is the pseudocode of R170 on an unbounded register. -/
theorem crc24_eq_wideCrc24 (d : Bytes) (p i : U24) : crc24 d p i = wideCrc24 d p.toNat i.toNat := by
  have h := wideCrc_register d p.toNat i.toNat i.isLt
  simp only [BitVec.ofNat_toNat, BitVec.setWidth_eq] at h
  have e : ∀ (v : U24) (k : Nat), BitVec.ofNat 8 (v.toNat / 2 ^ k) = v.extractLsb' k 8 := by
    intro v k
    apply BitVec.eq_of_toNat_eq
    simp [Nat.shiftRight_eq_div_pow]
  simp only [wideCrc24, crc24, h, ← e]
  simp

theorem crcBle_eq_wideCrc24 (d : Bytes) : crcBle d = wideCrc24 d 0x00065B 0x555555 := crc24_eq_wideCrc24 _ _ _

@[simp] theorem wideCrc24_length (d : Bytes) (p i : Nat) : (wideCrc24 d p i).length = 3 := rfl

end Sys2Proof.Machine
end

