-- ==== Sys2Proof/Laws/Assembly.lean ====
section
/-! SUPPORT. The budget, the PDU and what the four assembly commands do with a payload (R227–R246). -/

namespace Sys2Proof.Machine

theorem answered_eq_respond (s : State) (r : Bytes) : answered s r = respond r s := rfl

/-! ### Budget and length byte -/

theorem budget_eq_budgetLeft (e : Engine) (h : Nat) : budget e h = budgetLeft e h := by
  unfold budget budgetLeft name2 powerTerm budgetBase powerChunkLen
  cases e.name <;> cases e.showPower <;> simp

/-- `L = 30 - budget(h)` (R231). -/
theorem pduLength_eq (e : Engine) (h : Nat) : (pduLength e h : Int) = 30 - budgetLeft e h := by
  unfold pduLength budgetLeft name2 powerTerm powerChunkLen lenCountsCrc
  cases e.name <;> cases e.showPower <;> simp <;> omega

theorem budgetLeft_le (e : Engine) (h : Nat) : budgetLeft e h ≤ 18 - h := by
  unfold budgetLeft
  cases e.name <;> cases e.showPower <;> simp <;> omega

/-! ### Payloads -/

theorem singlePayload_eq (a : Byte) (d : Bytes) :
    singlePayload a d = { h := d.length + 2, bytes := BitVec.ofNat 8 (d.length + 1) :: a :: d } := by
  simp [singlePayload, emptySingleChunked, chunk]

theorem payloadBytes_length {i : Instr} {h : Nat} (hp : payloadSize i = some h) : (payloadBytes i).length = h := by
  cases i <;> simp [payloadSize, payloadBytes] at hp ⊢ <;> omega

/-- A command that carries a payload and does not transmit assembles it. -/
theorem exec_assemble {i : Instr} {h : Nat} (hp : payloadSize i = some h) (ht : ¬ Transmits i) (s : State) :
    exec i s = .next (assemblePayload { h := h, bytes := payloadBytes i } s) := by
  cases i <;> simp [payloadSize, Transmits] at hp ht
  all_goals subst hp
  · simp [exec, execAssemble, singlePayload_eq, payloadBytes]
  · simp [exec, execAsmseq, sequencePayload, payloadBytes]

/-- A command that transmits advertises its payload. -/
theorem exec_advertise {i : Instr} {h : Nat} (hp : payloadSize i = some h) (ht : Transmits i) (s : State) :
    exec i s = .next (advertisePayload { h := h, bytes := payloadBytes i } s) := by
  cases i <;> simp [payloadSize, Transmits] at hp ht
  all_goals subst hp
  · simp [exec, execAdv, singlePayload_eq, payloadBytes]
  · simp [exec, execAdvseq, sequencePayload, payloadBytes]

/-! ### The PDU -/

/-- The PDU before its CRC, as `referencePdu` writes it. -/
theorem pduBody_eq (s : State) (b : Bytes) :
    pduBody s.eng { h := b.length, bytes := b } (powerByte s)
      = [0x42#8, BitVec.ofNat 8 (30 - budgetLeft s.eng b.length).toNat, s.eng.mac.b0, s.eng.mac.b1, s.eng.mac.b2,
          s.eng.mac.b3, s.eng.mac.b4, s.eng.mac.b5, 0x02#8, 0x01#8, 0x05#8]
        ++ (if s.eng.showPower then [0x02#8, 0x0A#8, Config.paDbm (nextByte s)] else [])
        ++ (match s.eng.name with
          | none => []
          | some n => BitVec.ofNat 8 (n.length + 1) :: 0x08#8 :: n)
        ++ b := by
  have hl : pduLength s.eng b.length = (30 - budgetLeft s.eng b.length).toNat := by
    have := pduLength_eq s.eng b.length; omega
  unfold pduBody powerByte
  rw [hl]
  cases s.eng.showPower <;> cases s.eng.name <;>
    simp [macBytes, chunk, hdr0, flagsData, flagsType, powerType, nameType]

/-- The assembled PDU is the PDU laid out by R234, with its CRC. -/
theorem pdu_eq_referencePdu (s : State) (b : Bytes) :
    pdu s.eng { h := b.length, bytes := b } (powerByte s) = referencePdu s b := by
  simp only [pdu, pduBody_eq, crcBle_eq_wideCrc24, referencePdu] <;> rfl

theorem pduBody_length (s : State) (b : Bytes) :
    ((pduBody s.eng { h := b.length, bytes := b } (powerByte s)).length : Int) = 29 - budgetLeft s.eng b.length := by
  rw [pduBody_eq]
  unfold budgetLeft
  cases s.eng.name <;> cases s.eng.showPower <;> simp <;> omega

theorem referencePdu_length (s : State) (b : Bytes) :
    ((referencePdu s b).length : Int) = 32 - budgetLeft s.eng b.length := by
  rw [← pdu_eq_referencePdu, pdu, List.length_append, crcBle_length]
  have := pduBody_length s b; omega

/-! ### Assembling and advertising -/

theorem assemblePayload_over {p : Payload} {s : State} (h : budgetLeft s.eng p.h < 0) :
    assemblePayload p s = respond (errResponse (.budget (-(budgetLeft s.eng p.h)).toNat)) s := by
  simp [assemblePayload, asm, budget_eq_budgetLeft, h]

theorem advertisePayload_over {p : Payload} {s : State} (h : budgetLeft s.eng p.h < 0) :
    advertisePayload p s = respond (errResponse (.budget (-(budgetLeft s.eng p.h)).toNat)) s := by
  simp [advertisePayload, asm, budget_eq_budgetLeft, h]

/-- What ASSEMBLE and ASMSEQ do with any payload the budget holds. -/
theorem assemblePayload_within {s : State} {p : Payload} (h : 0 ≤ budgetLeft s.eng p.h) :
    assemblePayload p s
      = answeredWith (afterPower s) s.eng (powerEvents s) (0x00#8 :: pdu s.eng p (powerByte s)) := by
  have hn : ¬ budgetLeft s.eng p.h < 0 := by omega
  simp only [assemblePayload, asm, budget_eq_budgetLeft, hn, if_false]
  unfold readPower afterPower powerEvents
  cases s.eng.showPower <;>
    simp [answeredWith, respond, statusOk, logEvents, takeByte]

/-- What ADV and ADVSEQ do with any payload the budget holds. -/
theorem advertisePayload_within {s : State} {p : Payload} (h : 0 ≤ budgetLeft s.eng p.h) :
    advertisePayload p s
      = answeredWith (takeBool (afterPower s)) s.eng
          (powerEvents s ++ [.setListen false,
            .write (onAir s.eng.chanIdx (pdu s.eng p (powerByte s))) (nextBool (afterPower s))])
          (if nextBool (afterPower s) then [0x00#8] else [0x21#8]) := by
  have hn : ¬ budgetLeft s.eng p.h < 0 := by omega
  simp only [advertisePayload, asm, budget_eq_budgetLeft, hn, if_false]
  unfold readPower afterPower powerEvents
  cases s.eng.showPower <;>
    simp only [Bool.false_eq_true, if_false, if_true, radioGetPaLevel_eq, radioSetListen_eq, radioWrite_eq, respondOk_eq,
      raiseErr_eq]
  · have e : nextBool (logEvents [.setListen false] s) = nextBool s := rfl
    rw [e]
    cases nextBool s <;>
      simp [answeredWith, respond, statusOk, logEvents, takeBool, errResponse, errCode]
  · have e : nextBool (logEvents [.setListen false] (logEvents [.getPaLevel (nextByte s)] (takeByte s)))
      = nextBool (takeByte s) := rfl
    rw [e]
    cases nextBool (takeByte s) <;>
      simp [answeredWith, respond, statusOk, logEvents, takeBool, takeByte, errResponse, errCode]

end Sys2Proof.Machine
end

