-- ==== Sys2Proof/Laws/Decode.lean ====
section
/-! SUPPORT. The decoder and the encoder: u24 fields, the FS walk, the end of a frame in a stream (R91–R99). -/

namespace Sys2Proof

theorem toNat_ofNat_length {d : Bytes} (h : d.length ≤ 255) : (BitVec.ofNat 8 d.length).toNat = d.length := by
  simp; omega

/-! ### u24 fields (R92) -/

@[simp] theorem bytesOfU24_length (v : U24) : (bytesOfU24 v).length = 3 := rfl

theorem u24le_bit (b0 b1 b2 : Byte) (i : Nat) :
    (u24le b0 b1 b2).getLsbD i
      = if i < 8 then b0.getLsbD i else if i - 8 < 8 then b1.getLsbD (i - 8) else b2.getLsbD (i - 8 - 8) := by
  simp only [u24le, BitVec.getLsbD_append]

theorem u24le_bytesOfU24 (v : U24) : u24le (v.extractLsb' 0 8) (v.extractLsb' 8 8) (v.extractLsb' 16 8) = v := by
  apply BitVec.eq_of_getLsbD_eq
  intro i hi
  rw [u24le_bit]
  simp only [BitVec.getLsbD_extractLsb']
  split_ifs with h1 h2
  · simp [h1]
  · simp [h2, show 8 + (i - 8) = i by omega]
  · simp [show i - 8 - 8 < 8 by omega, show 16 + (i - 8 - 8) = i by omega]

theorem bytesOfU24_u24le (b0 b1 b2 : Byte) : bytesOfU24 (u24le b0 b1 b2) = [b0, b1, b2] := by
  simp only [bytesOfU24, List.cons.injEq, and_true]
  refine ⟨?_, ?_, ?_⟩ <;> (apply BitVec.eq_of_getLsbD_eq; intro i hi; rw [BitVec.getLsbD_extractLsb', u24le_bit])
  · simp [hi]
  · simp [hi]
  · simp [hi, show ¬ 16 + i < 8 by omega, show ¬ 16 + i - 8 < 8 by omega, show 16 + i - 8 - 8 = i by omega]

/-! ### The FS walk (R93) -/

theorem seqWalk_flatMap (seq : List Bytes) (h : ∀ d ∈ seq, d.length ≤ 255) :
    seqWalk seq.length (seq.flatMap encodeBuffer) = some seq := by
  induction seq with
  | nil => rfl
  | cons d seq ih =>
    have hd : (BitVec.ofNat 8 d.length).toNat = d.length := toNat_ofNat_length (h d (by simp))
    simp [encodeBuffer, seqWalk, hd, ih fun x hx => h x (by simp [hx])]

theorem seqWalk_some {k : Nat} {r : Bytes} {seq : List Bytes} (h : seqWalk k r = some seq) :
    seq.length = k ∧ (∀ d ∈ seq, d.length ≤ 255) ∧ r = seq.flatMap encodeBuffer := by
  induction k generalizing r seq with
  | zero =>
    cases r <;> simp [seqWalk] at h
    subst h; simp
  | succ k ih =>
    match r with
    | [] => simp [seqWalk] at h
    | n :: r =>
      simp only [seqWalk] at h
      split at h
      · rename_i hn
        obtain ⟨tl, htl, rfl⟩ := Option.map_eq_some_iff.mp h
        obtain ⟨h1, h2, h3⟩ := ih htl
        have hl : (r.take n.toNat).length = n.toNat := by simp [hn]
        have hlt := n.isLt
        refine ⟨by simp [h1], ?_, ?_⟩
        · intro d hd
          rcases List.mem_cons.mp hd with rfl | hd
          · omega
          · exact h2 d hd
        · simp only [List.flatMap_cons, ← h3, encodeBuffer, hl]
          simp
      · simp at h

/-- Where the entries of a sequence end in a stream (R99). -/
theorem seqExtent_flatMap (seq : List Bytes) (more : Bytes) (h : ∀ d ∈ seq, d.length ≤ 255) :
    seqExtent seq.length (seq.flatMap encodeBuffer ++ more) = (seq.flatMap encodeBuffer).length := by
  induction seq with
  | nil => rfl
  | cons d seq ih =>
    have hd : (BitVec.ofNat 8 d.length).toNat = d.length := toNat_ofNat_length (h d (by simp))
    have e : (d ++ (seq.flatMap encodeBuffer ++ more)).drop d.length = seq.flatMap encodeBuffer ++ more := by simp
    simp only [List.flatMap_cons, encodeBuffer, List.length_cons, List.cons_append, List.append_assoc, seqExtent,
      List.headD_cons, hd, Nat.add_comm 1 d.length, List.drop_succ_cons, List.length_append] at ih ⊢
    rw [e, ih fun x hx => h x (by simp [hx])]
    omega

/-! ### Format by format -/

theorem operands_fb_encode (k : Bytes → Instr) (d : Bytes) (h : d.length ≤ 255) :
    (Format.fb k).operands (encodeBuffer d) = some (k d) := by
  simp [Format.operands, encodeBuffer]; omega

theorem operands_fab_encode (k : Byte → Bytes → Instr) (a : Byte) (d : Bytes) (h : d.length ≤ 255) :
    (Format.fab k).operands (a :: encodeBuffer d) = some (k a d) := by
  simp [Format.operands, encodeBuffer]; omega

theorem operands_fc_encode (k : U24 → U24 → Bytes → Instr) (p i : U24) (d : Bytes) (h : d.length ≤ 255) :
    (Format.fc k).operands (bytesOfU24 p ++ bytesOfU24 i ++ encodeBuffer d) = some (k p i d) := by
  simp [Format.operands, encodeBuffer, bytesOfU24, u24le_bytesOfU24]; omega

theorem operands_fs_encode (k : List Bytes → Instr) (seq : List Bytes) (h : sequenceFits seq = true) :
    (Format.fs k).operands (encodeSequence seq) = some (k seq) := by
  simp only [sequenceFits, Bool.and_eq_true, decide_eq_true_eq, List.all_eq_true, bufferFits] at h
  have hk : (BitVec.ofNat 8 seq.length).toNat = seq.length := by simp; omega
  simp [Format.operands, encodeSequence, hk, seqWalk_flatMap seq h.2]

theorem bufferFits_iff {d : Bytes} : bufferFits d = true ↔ d.length ≤ 255 := by simp [bufferFits]

theorem decodeFrame_cons {op : Byte} {r : Bytes} {i : Instr} :
    decodeFrame (op :: r) = .ok i ↔ ∃ fmt, opcodeRow op = some fmt ∧ fmt.operands r = some i := by
  cases h0 : opcodeRow op with
  | none => simp [decodeFrame, h0]
  | some fmt => cases h : fmt.operands r <;> simp [decodeFrame, h0, h]

/-- A listed opcode: its byte and its format, all 21 rows (R95). -/
theorem opcodeRow_cases {op : Byte} {fmt : Format} (h : opcodeRow op = some fmt) :
    (op = 0x01#8 ∧ fmt = .f1 .revb) ∨ (op = 0x02#8 ∧ fmt = .fb .revbuf) ∨ (op = 0x03#8 ∧ fmt = .fab .chunk)
      ∨ (op = 0x08#8 ∧ fmt = .fab .whiten) ∨ (op = 0x09#8 ∧ fmt = .fb .whitench) ∨ (op = 0x0C#8 ∧ fmt = .fc .crc24)
      ∨ (op = 0x10#8 ∧ fmt = .fb .setmac) ∨ (op = 0x11#8 ∧ fmt = .fb .setname) ∨ (op = 0x12#8 ∧ fmt = .f0 .clrname)
      ∨ (op = 0x13#8 ∧ fmt = .f1 .setpwr) ∨ (op = 0x14#8 ∧ fmt = .f0 .getcfg) ∨ (op = 0x20#8 ∧ fmt = .f0 .beginRadio)
      ∨ (op = 0x21#8 ∧ fmt = .f0 .hop) ∨ (op = 0x22#8 ∧ fmt = .f1 .lenavail) ∨ (op = 0x23#8 ∧ fmt = .fab .assemble)
      ∨ (op = 0x24#8 ∧ fmt = .fs .asmseq) ∨ (op = 0x25#8 ∧ fmt = .fab .adv) ∨ (op = 0x26#8 ∧ fmt = .fs .advseq)
      ∨ (op = 0x30#8 ∧ fmt = .f0 .poll) ∨ (op = 0x31#8 ∧ fmt = .f0 .read) ∨ (op = 0x32#8 ∧ fmt = .fb .decode) := by
  unfold opcodeRow at h
  split at h <;> simp at h <;> subst h <;> rename_i hop <;>
    simp only [BitVec.toNat_eq, hop] <;> simp

/-- What the operand bytes of each format look like when they make a command (R91, R93). -/
theorem operands_some {fmt : Format} {r : Bytes} {i : Instr} (h : fmt.operands r = some i) :
    (∃ j, fmt = .f0 j ∧ r = [] ∧ i = j) ∨ (∃ k a, fmt = .f1 k ∧ r = [a] ∧ i = k a)
      ∨ (∃ k d, fmt = .fb k ∧ d.length ≤ 255 ∧ r = encodeBuffer d ∧ i = k d)
      ∨ (∃ k a d, fmt = .fab k ∧ d.length ≤ 255 ∧ r = a :: encodeBuffer d ∧ i = k a d)
      ∨ (∃ k p q d, fmt = .fc k ∧ d.length ≤ 255 ∧ r = bytesOfU24 p ++ bytesOfU24 q ++ encodeBuffer d ∧ i = k p q d)
      ∨ (∃ k seq, fmt = .fs k ∧ sequenceFits seq = true ∧ r = encodeSequence seq ∧ i = k seq) := by
  have buf : ∀ (n : Byte) (d : Bytes), d.length = n.toNat → d.length ≤ 255 ∧ n :: d = encodeBuffer d := by
    intro n d hd
    have := n.isLt
    exact ⟨by omega, by simp [encodeBuffer, hd]⟩
  unfold Format.operands at h
  split at h
  · simp at h; exact .inl ⟨_, rfl, rfl, h.symm⟩
  · simp at h; exact .inr (.inl ⟨_, _, rfl, rfl, h.symm⟩)
  · split at h
    · rename_i n d hd; simp at h
      exact .inr (.inr (.inl ⟨_, d, rfl, (buf n d hd).1, (buf n d hd).2, h.symm⟩))
    · simp at h
  · split at h
    · rename_i a n d hd; simp at h
      exact .inr (.inr (.inr (.inl ⟨_, a, d, rfl, (buf n d hd).1, by rw [(buf n d hd).2], h.symm⟩)))
    · simp at h
  · split at h
    · rename_i p0 p1 p2 i0 i1 i2 n d hd; simp at h
      refine .inr (.inr (.inr (.inr (.inl ⟨_, u24le p0 p1 p2, u24le i0 i1 i2, d, rfl, (buf n d hd).1, ?_, h.symm⟩))))
      rw [bytesOfU24_u24le, bytesOfU24_u24le, ← (buf n d hd).2]; rfl
    · simp at h
  · rename_i k n r
    obtain ⟨seq, hs, rfl⟩ := Option.map_eq_some_iff.mp h
    obtain ⟨h1, h2, h3⟩ := seqWalk_some hs
    have := n.isLt
    refine .inr (.inr (.inr (.inr (.inr ⟨k, seq, rfl, ?_, ?_, rfl⟩))))
    · simpa [sequenceFits, bufferFits] using ⟨by omega, h2⟩
    · simp [encodeSequence, h1, ← h3]
  · simp at h

/-! ### Opcodes and mnemonics (R95, R96) -/

/-- The opcode byte of a command (R95). -/
def Instr.opcode : Instr → Byte
  | .revb _ => 0x01#8
  | .revbuf _ => 0x02#8
  | .chunk _ _ => 0x03#8
  | .whiten _ _ => 0x08#8
  | .whitench _ => 0x09#8
  | .crc24 _ _ _ => 0x0C#8
  | .setmac _ => 0x10#8
  | .setname _ => 0x11#8
  | .clrname => 0x12#8
  | .setpwr _ => 0x13#8
  | .getcfg => 0x14#8
  | .beginRadio => 0x20#8
  | .hop => 0x21#8
  | .lenavail _ => 0x22#8
  | .assemble _ _ => 0x23#8
  | .asmseq _ => 0x24#8
  | .adv _ _ => 0x25#8
  | .advseq _ => 0x26#8
  | .poll => 0x30#8
  | .read => 0x31#8
  | .decode _ => 0x32#8

theorem encode_head (i : Instr) : (encode i).head? = some i.opcode := by cases i <;> rfl

theorem mnemonic_eq_iff_opcode_eq (i j : Instr) : i.mnemonic = j.mnemonic ↔ i.opcode = j.opcode := by
  cases i <;> cases j <;> simp [Instr.mnemonic, Instr.opcode]

/-! ### Where a frame ends (R99) -/

theorem frameEnd_fb {op : Byte} {k : Bytes → Instr} (h : opcodeRow op = some (.fb k)) {d : Bytes} (hd : d.length ≤ 255)
    (more : Bytes) : frameEnd (op :: encodeBuffer d ++ more) = some (op :: encodeBuffer d).length := by
  simp [frameEnd, h, Format.extent, encodeBuffer]; omega

theorem frameEnd_fab {op : Byte} {k : Byte → Bytes → Instr} (h : opcodeRow op = some (.fab k)) (a : Byte) {d : Bytes}
    (hd : d.length ≤ 255) (more : Bytes) :
    frameEnd (op :: a :: encodeBuffer d ++ more) = some (op :: a :: encodeBuffer d).length := by
  simp [frameEnd, h, Format.extent, encodeBuffer]; omega

theorem frameEnd_fc {op : Byte} {k : U24 → U24 → Bytes → Instr} (h : opcodeRow op = some (.fc k)) (p q : U24) {d : Bytes}
    (hd : d.length ≤ 255) (more : Bytes) :
    frameEnd (op :: (bytesOfU24 p ++ bytesOfU24 q ++ encodeBuffer d) ++ more)
      = some (op :: (bytesOfU24 p ++ bytesOfU24 q ++ encodeBuffer d)).length := by
  simp [frameEnd, h, Format.extent, encodeBuffer, bytesOfU24]; omega

theorem frameEnd_fs {op : Byte} {k : List Bytes → Instr} (h : opcodeRow op = some (.fs k)) {seq : List Bytes}
    (hs : sequenceFits seq = true) (more : Bytes) :
    frameEnd (op :: encodeSequence seq ++ more) = some (op :: encodeSequence seq).length := by
  simp only [sequenceFits, Bool.and_eq_true, decide_eq_true_eq, List.all_eq_true, bufferFits_iff] at hs
  have hk : (BitVec.ofNat 8 seq.length).toNat = seq.length := by simp; omega
  simp only [encodeSequence, List.cons_append, frameEnd, h, Option.map_some, Format.extent, List.getD_cons_zero, hk,
    List.drop_succ_cons, List.drop_zero, seqExtent_flatMap seq more hs.2, List.length_cons]
  congr 1; omega

end Sys2Proof
end

