-- ==== Sys2Proof/Laws/PerInstr.lean ====
section
/-! SUPPORT. What holds of every command as syntax, constructor by constructor: its frame decodes back to it (R91–R95). -/

namespace Sys2Proof.Laws.RoundTrip

/-- The frame of a well-formed command decodes to that command. -/
def Statement (i : Instr) : Prop := i.wellFormed = true → decodeFrame (encode i) = .ok i

theorem revb (a : Byte) : Statement (.revb a) := fun _ => rfl

theorem revbuf (d : Bytes) : Statement (.revbuf d) :=
  fun h => decodeFrame_cons.mpr ⟨_, rfl, operands_fb_encode Instr.revbuf d (bufferFits_iff.mp h)⟩

theorem chunk (a : Byte) (d : Bytes) : Statement (.chunk a d) :=
  fun h => decodeFrame_cons.mpr ⟨_, rfl, operands_fab_encode Instr.chunk a d (bufferFits_iff.mp h)⟩

theorem whiten (a : Byte) (d : Bytes) : Statement (.whiten a d) :=
  fun h => decodeFrame_cons.mpr ⟨_, rfl, operands_fab_encode Instr.whiten a d (bufferFits_iff.mp h)⟩

theorem whitench (d : Bytes) : Statement (.whitench d) :=
  fun h => decodeFrame_cons.mpr ⟨_, rfl, operands_fb_encode Instr.whitench d (bufferFits_iff.mp h)⟩

theorem crc24 (p : U24) (q : U24) (d : Bytes) : Statement (.crc24 p q d) :=
  fun h => decodeFrame_cons.mpr ⟨_, rfl, operands_fc_encode Instr.crc24 p q d (bufferFits_iff.mp h)⟩

theorem setmac (d : Bytes) : Statement (.setmac d) :=
  fun h => decodeFrame_cons.mpr ⟨_, rfl, operands_fb_encode Instr.setmac d (bufferFits_iff.mp h)⟩

theorem setname (d : Bytes) : Statement (.setname d) :=
  fun h => decodeFrame_cons.mpr ⟨_, rfl, operands_fb_encode Instr.setname d (bufferFits_iff.mp h)⟩

theorem clrname : Statement (.clrname) := fun _ => rfl

theorem setpwr (a : Byte) : Statement (.setpwr a) := fun _ => rfl

theorem getcfg : Statement (.getcfg) := fun _ => rfl

theorem beginRadio : Statement (.beginRadio) := fun _ => rfl

theorem hop : Statement (.hop) := fun _ => rfl

theorem lenavail (a : Byte) : Statement (.lenavail a) := fun _ => rfl

theorem assemble (a : Byte) (d : Bytes) : Statement (.assemble a d) :=
  fun h => decodeFrame_cons.mpr ⟨_, rfl, operands_fab_encode Instr.assemble a d (bufferFits_iff.mp h)⟩

theorem asmseq (seq : List Bytes) : Statement (.asmseq seq) :=
  fun h => decodeFrame_cons.mpr ⟨_, rfl, operands_fs_encode Instr.asmseq seq h⟩

theorem adv (a : Byte) (d : Bytes) : Statement (.adv a d) :=
  fun h => decodeFrame_cons.mpr ⟨_, rfl, operands_fab_encode Instr.adv a d (bufferFits_iff.mp h)⟩

theorem advseq (seq : List Bytes) : Statement (.advseq seq) :=
  fun h => decodeFrame_cons.mpr ⟨_, rfl, operands_fs_encode Instr.advseq seq h⟩

theorem poll : Statement (.poll) := fun _ => rfl

theorem read : Statement (.read) := fun _ => rfl

theorem decode (d : Bytes) : Statement (.decode d) :=
  fun h => decodeFrame_cons.mpr ⟨_, rfl, operands_fb_encode Instr.decode d (bufferFits_iff.mp h)⟩

end Sys2Proof.Laws.RoundTrip
end

