-- ==== Sys2Proof/Laws/Frames.lean ====
section
/-! SUPPORT. The frame shapes of R91, R94, R95 and R97 against the decoder, and the three cases of a step. -/

namespace Sys2Proof.Machine

theorem illegal_iff_unlisted : ∀ op : Byte, IllegalOpcode op ↔ (opcodeRow op).isNone = true := by
  unfold IllegalOpcode; decide +kernel

theorem listed_iff : ∀ op : Byte, op ∈ listedOpcodes ↔ (opcodeRow op).isSome = true := by decide +kernel

/-- A frame that decodes has the shape R91 gives it. -/
theorem wellShaped_of_decode {f : Bytes} {i : Instr} (h : decodeFrame f = .ok i) : WellShaped f := by
  match f with
  | [] => simp [decodeFrame] at h
  | op :: r =>
    obtain ⟨fmt, h1, h2⟩ := decodeFrame_cons.mp h
    refine ⟨op, r, rfl, ?_⟩
    rcases operands_some h2 with ⟨j, rfl, rfl, -⟩ | ⟨k, a, rfl, rfl, -⟩ | ⟨k, d, rfl, hd, rfl, -⟩ |
      ⟨k, a, d, rfl, hd, rfl, -⟩ | ⟨k, p, q, d, rfl, hd, rfl, -⟩ | ⟨k, seq, rfl, hs, rfl, -⟩
    · refine .inl ⟨?_, rfl⟩
      rcases opcodeRow_cases h1 with h|h|h|h|h|h|h|h|h|h|h|h|h|h|h|h|h|h|h|h|h <;> simp [h.1, f0Opcodes] <;> simp at h
    · refine .inr (.inl ⟨?_, rfl⟩)
      rcases opcodeRow_cases h1 with h|h|h|h|h|h|h|h|h|h|h|h|h|h|h|h|h|h|h|h|h <;> simp [h.1, f1Opcodes] <;> simp at h
    · refine .inr (.inr (.inl ⟨?_, _, rfl, ?_⟩))
      · rcases opcodeRow_cases h1 with h|h|h|h|h|h|h|h|h|h|h|h|h|h|h|h|h|h|h|h|h <;> simp [h.1, fbOpcodes] <;> simp at h
      · simp [encodeBuffer]; omega
    · refine .inr (.inr (.inr (.inl ⟨?_, _, rfl, ?_⟩)))
      · rcases opcodeRow_cases h1 with h|h|h|h|h|h|h|h|h|h|h|h|h|h|h|h|h|h|h|h|h <;> simp [h.1, fabOpcodes] <;> simp at h
      · simp [encodeBuffer]; omega
    · refine .inr (.inr (.inr (.inr (.inl ⟨?_, _, rfl, ?_⟩))))
      · rcases opcodeRow_cases h1 with h|h|h|h|h|h|h|h|h|h|h|h|h|h|h|h|h|h|h|h|h <;> simp [h.1, fcOpcodes] <;> simp at h
      · simp [encodeBuffer]; omega
    · simp only [sequenceFits, Bool.and_eq_true, decide_eq_true_eq, List.all_eq_true, bufferFits_iff] at hs
      refine .inr (.inr (.inr (.inr (.inr ⟨?_, seq, hs.1, hs.2, rfl⟩))))
      rcases opcodeRow_cases h1 with h|h|h|h|h|h|h|h|h|h|h|h|h|h|h|h|h|h|h|h|h <;> simp [h.1, fsOpcodes] <;> simp at h

/-- A well-shaped frame decodes (R94). -/
theorem decode_of_wellShaped {f : Bytes} (h : WellShaped f) : ∃ i, decodeFrame f = .ok i := by
  obtain ⟨op, r, rfl, h⟩ := h
  have go : ∀ fmt i, opcodeRow op = some fmt → fmt.operands r = some i → ∃ i, decodeFrame (op :: r) = .ok i :=
    fun fmt i a b => ⟨i, decodeFrame_cons.mpr ⟨fmt, a, b⟩⟩
  rcases h with ⟨ho, hl⟩ | ⟨ho, hl⟩ | ⟨ho, n, hn, hl⟩ | ⟨ho, n, hn, hl⟩ | ⟨ho, n, hn, hl⟩ | ⟨ho, seq, hk, hs, rfl⟩
  · obtain rfl : r = [] := by simpa using hl
    simp only [f0Opcodes, List.mem_cons, List.not_mem_nil, or_false] at ho
    rcases ho with rfl | rfl | rfl | rfl | rfl | rfl <;> exact go _ _ rfl rfl
  · obtain ⟨a, rfl⟩ : ∃ a, r = [a] := List.length_eq_one_iff.mp (by simpa using hl)
    simp only [f1Opcodes, List.mem_cons, List.not_mem_nil, or_false] at ho
    rcases ho with rfl | rfl | rfl <;> exact go _ _ rfl rfl
  · match r with
    | [] => simp at hn
    | m :: d =>
      obtain rfl : m = n := by simpa using hn
      have hd : d.length = m.toNat := by simp at hl; omega
      simp only [fbOpcodes, List.mem_cons, List.not_mem_nil, or_false] at ho
      rcases ho with rfl | rfl | rfl | rfl | rfl <;> exact go _ _ rfl (if_pos hd)
  · match r with
    | [] | [_] => simp at hn
    | a :: m :: d =>
      obtain rfl : m = n := by simpa using hn
      have hd : d.length = m.toNat := by simp at hl; omega
      simp only [fabOpcodes, List.mem_cons, List.not_mem_nil, or_false] at ho
      rcases ho with rfl | rfl | rfl | rfl <;> exact go _ _ rfl (if_pos hd)
  · match r with
    | [] | [_] | [_, _] | [_, _, _] | [_, _, _, _] | [_, _, _, _, _] | [_, _, _, _, _, _] => simp at hn
    | _ :: _ :: _ :: _ :: _ :: _ :: m :: d =>
      obtain rfl : m = n := by simpa using hn
      have hd : d.length = m.toNat := by simp at hl; omega
      simp only [fcOpcodes, List.mem_cons, List.not_mem_nil, or_false] at ho
      rcases ho with rfl; exact go _ _ rfl (if_pos hd)
  · have hf : sequenceFits seq = true := by
      simpa [sequenceFits, bufferFits] using ⟨hk, hs⟩
    simp only [fsOpcodes, List.mem_cons, List.not_mem_nil, or_false] at ho
    rcases ho with rfl | rfl <;> exact go _ _ rfl (operands_fs_encode _ seq hf)

/-- The three outcomes of decoding, by the frame's shape (R94, R333). -/
theorem decodeFrame_cases (f : Bytes) :
    (f = [] ∧ decodeFrame f = .error .emptyFrame)
      ∨ (∃ op r, f = op :: r ∧ IllegalOpcode op ∧ decodeFrame f = .error (.illegalOpcode op))
      ∨ (∃ op r, f = op :: r ∧ ¬ IllegalOpcode op ∧ ¬ WellShaped f ∧ decodeFrame f = .error (.lengthMismatch op))
      ∨ (∃ op r i, f = op :: r ∧ ¬ IllegalOpcode op ∧ WellShaped f ∧ decodeFrame f = .ok i) := by
  match f with
  | [] => exact .inl ⟨rfl, rfl⟩
  | op :: r =>
    have hi := illegal_iff_unlisted op
    cases h0 : opcodeRow op with
    | none => exact .inr (.inl ⟨op, r, rfl, by simpa [h0] using hi, by simp [decodeFrame, h0]⟩)
    | some fmt =>
      have hn : ¬ IllegalOpcode op := by simpa [h0] using hi
      cases h1 : fmt.operands r with
      | some i =>
        have hd : decodeFrame (op :: r) = .ok i := by simp [decodeFrame, h0, h1]
        exact .inr (.inr (.inr ⟨op, r, i, rfl, hn, wellShaped_of_decode hd, hd⟩))
      | none =>
        have hd : decodeFrame (op :: r) = .error (.lengthMismatch op) := by simp [decodeFrame, h0, h1]
        refine .inr (.inr (.inl ⟨op, r, rfl, hn, fun hw => ?_, hd⟩))
        obtain ⟨i, hi⟩ := decode_of_wellShaped hw
        rw [hd] at hi; cases hi

/-! ### The step -/

theorem step_idle {s : State} (h : s.cmdIn = []) : step s = .fault .noCommandPending := by simp [step, h]

theorem dropFrame_eq {s : State} {f : Bytes} {rest : List Bytes} (h : s.cmdIn = f :: rest) :
    dropFrame s = consumed s rest := by simp [dropFrame, consumed, h]

/-- A pending frame that decodes: its command runs. -/
theorem step_command {s : State} {f : Bytes} {rest : List Bytes} {i : Instr} (h : s.cmdIn = f :: rest)
    (hd : decodeFrame f = .ok i) : step s = exec i (consumed s rest) := by
  rw [← dropFrame_eq h]; simp [step, h, hd]

/-- A pending frame that does not decode: it is answered with its error and nothing else happens (R330). -/
theorem step_refused {s : State} {f : Bytes} {rest : List Bytes} {x : DecodeError} (h : s.cmdIn = f :: rest)
    (hd : decodeFrame f = .error x) : step s = .next (answered (consumed s rest) (errResponse (frameErr x))) := by
  rw [← dropFrame_eq h]; simp [step, h, hd]; rfl

/-- Everything a step can do (R8, R94, R330). -/
theorem step_cases {s t : State} (h : step s = .next t) :
    ∃ f rest, s.cmdIn = f :: rest ∧
      ((∃ i, decodeFrame f = .ok i ∧ exec i (consumed s rest) = .next t)
        ∨ ∃ c : Byte, (c = 0x01#8 ∨ c = 0x02#8) ∧ t = answered (consumed s rest) [c]) := by
  cases hc : s.cmdIn with
  | nil => rw [step_idle hc] at h; cases h
  | cons f rest =>
    refine ⟨f, rest, rfl, ?_⟩
    cases hd : decodeFrame f with
    | ok i => exact .inl ⟨i, rfl, by rw [← step_command hc hd, h]⟩
    | error x =>
      rw [step_refused hc hd] at h
      injection h with h
      refine .inr ?_
      cases x with
      | emptyFrame => exact ⟨0x02#8, .inr rfl, h.symm⟩
      | illegalOpcode op => exact ⟨0x01#8, .inl rfl, h.symm⟩
      | lengthMismatch op => exact ⟨0x02#8, .inr rfl, h.symm⟩

end Sys2Proof.Machine
end

