-- ==== Sys2Proof/Laws/Reception.lean ====
section
/-! SUPPORT. The receive pipeline: the front end, validation, the chunk walk, the sizes of a record, UTF-8 (R270–R286). -/

namespace Sys2Proof.Machine

/-! ### The front end (R271) -/

@[simp] theorem rxFront_onAir (i : Fin 3) (p : Bytes) : rxFront i (onAir i p) = p := by simp [rxFront, onAir]

@[simp] theorem rxFront_length (i : Fin 3) (raw : Bytes) : (rxFront i raw).length = raw.length := by simp [rxFront]

/-! ### Validation (R272) -/

/-- `rxValidate` passes exactly what the checks of R272 accept. -/
theorem rxValidate_eq_some {f g : Bytes} {e : Nat} : rxValidate f = some (g, e) ↔ Accepted f g e := by
  have hz : ∀ l : Byte, f[1]? = some l → f.getD 1 0#8 = l := by
    intro l hl; simp [List.getD_eq_getElem?_getD, hl]
  simp only [rxValidate, pduExtent, lenCountsCrc, rxLenLimit, parseStart, if_true, crcBle_eq_wideCrc24, Accepted]
  constructor
  · intro h
    split_ifs at h with h1 h2 h3 h4 h5
    have hl : f[1]? = some (f.getD 1 0#8) := by
      rw [List.getD_eq_getElem?_getD, List.getElem?_eq_getElem (by omega)]; rfl
    generalize f.getD 1 0#8 = l at *
    simp only [Option.some.injEq, Prod.mk.injEq] at h
    obtain ⟨rfl, rfl⟩ := h
    refine ⟨_, hl, by omega, by omega, rfl, by omega, by omega, ?_⟩
    simpa using h5
  · rintro ⟨l, hl, h1, h2, rfl, h3, h4, h5⟩
    rw [hz l hl]
    obtain rfl : e = l.toNat + 2 - 3 := by omega
    have a1 : ¬ f.length < 2 := by omega
    have a2 : ¬ f.length < l.toNat + 2 := by omega
    have a3 : ¬ l.toNat + 2 - 3 < 8 := by omega
    simp only [Nat.add_zero]
    rw [if_neg a1, if_neg (not_not.mpr h1), if_neg a2, if_neg a3, if_neg (not_not.mpr h5)]

theorem rxValidate_eq_none {f : Bytes} : rxValidate f = none ↔ ¬ ∃ g e, Accepted f g e := by
  rw [← not_iff_not, not_not, ← ne_eq, Option.ne_none_iff_exists']
  constructor
  · rintro ⟨⟨g, e⟩, h⟩; exact ⟨g, e, rxValidate_eq_some.mp h⟩
  · rintro ⟨g, e, h⟩; exact ⟨(g, e), rxValidate_eq_some.mpr h⟩

theorem receive_accepted {i : Fin 3} {raw g : Bytes} {e : Nat} (h : Accepted (rxFront i raw) g e) :
    receive i raw = some (parseRecord g e) := by
  simp [receive, rxValidate_eq_some.mpr h]

theorem receive_dropped {i : Fin 3} {raw : Bytes} (h : ¬ ∃ g e, Accepted (rxFront i raw) g e) :
    receive i raw = none := by
  simp [receive, rxValidate_eq_none.mpr h]

/-- A record that is received comes from an accepted buffer. -/
theorem receive_some {i : Fin 3} {raw : Bytes} {r : Record} (h : receive i raw = some r) :
    ∃ g e, Accepted (rxFront i raw) g e ∧ r = parseRecord g e := by
  obtain ⟨⟨g, e⟩, hv, rfl⟩ := Option.map_eq_some_iff.mp h
  exact ⟨g, e, rxValidate_eq_some.mp hv, rfl⟩

/-- The sizes an accepted buffer has: the AD region is at most 20 bytes (R272). -/
theorem Accepted.sizes {f g : Bytes} {e : Nat} (h : Accepted f g e) : 8 ≤ e ∧ e ≤ 28 ∧ g.length = e + 3 := by
  obtain ⟨l, -, h1, h2, rfl, h3, h4, -⟩ := h
  refine ⟨h4, by omega, ?_⟩
  simp; omega

/-! ### The chunk walk (R273) -/

/-- More rounds than bytes change nothing. -/
theorem walkChunks_rounds {k m : Nat} (ad : Bytes) (r : Record) (hk : ad.length ≤ k) (hm : ad.length ≤ m) :
    walkChunks k ad r = walkChunks m ad r := by
  induction k generalizing m ad r with
  | zero =>
    obtain rfl : ad = [] := List.length_eq_zero_iff.mp (by omega)
    cases m <;> rfl
  | succ k ih =>
    match ad, m with
    | [], 0 => rfl
    | [], m + 1 => rfl
    | size :: ad, 0 => simp at hm
    | size :: ad, m + 1 =>
      simp only [walkChunks]
      split
      · rfl
      · exact ih _ _ (by simp at hk ⊢; omega) (by simp at hm ⊢; omega)

/-- A whole chunk at the front is dispatched, and the walk goes on behind it. -/
theorem walkChunks_chunk {k : Nat} {c : AdChunk} (hc : AdChunkFits c) (ad : Bytes) (r : Record)
    (hk : (adChunkBytes c ++ ad).length ≤ k) :
    walkChunks k (adChunkBytes c ++ ad) r
      = walkChunks ad.length ad (dispatchChunk c.1 c.2 (adChunkBytes c) r) := by
  unfold AdChunkFits at hc
  have hs : (BitVec.ofNat 8 (c.2.length + 1)).toNat = c.2.length + 1 := by simp; omega
  match k with
  | 0 => simp [adChunkBytes] at hk
  | k + 1 =>
    have hn : ¬ (c.2.length + 1 = 0 ∨ (c.1 :: (c.2 ++ ad)).length < c.2.length + 1) := by simp
    simp only [adChunkBytes, List.cons_append, walkChunks, hs, hn, if_false]
    simp only [List.drop_succ_cons, List.headD_cons, List.take_succ_cons, List.tail_cons, List.drop_left,
      List.take_left]
    exact walkChunks_rounds _ _ (by simp [adChunkBytes] at hk; omega) le_rfl

/-- At a declared size that is 0 or overruns, the rest is one raw fragment. -/
theorem walkChunks_tail {k : Nat} {tail : Bytes} (ht : UnparsedTail tail) (r : Record) (hk : tail.length ≤ k) :
    walkChunks k tail r = if tail = [] then r else addItem (.raw tail) r := by
  match tail, k with
  | [], 0 => rfl
  | [], k + 1 => rfl
  | size :: ad, 0 => simp at hk
  | size :: ad, k + 1 =>
    have : size.toNat = 0 ∨ ad.length < size.toNat := ht
    simp [walkChunks, this]

/-- The walk over whole chunks and a tail. -/
theorem walkChunks_chunks {k : Nat} (cs : List AdChunk) (tail : Bytes) (r : Record) (hc : ∀ c ∈ cs, AdChunkFits c)
    (ht : UnparsedTail tail) (hk : (cs.flatMap adChunkBytes ++ tail).length ≤ k) :
    walkChunks k (cs.flatMap adChunkBytes ++ tail) r
      = (let r' := cs.foldl (fun r c => dispatchChunk c.1 c.2 (adChunkBytes c) r) r
         if tail = [] then r' else addItem (.raw tail) r') := by
  induction cs generalizing k r with
  | nil => exact walkChunks_tail ht r (by simpa using hk)
  | cons c cs ih =>
    simp only [List.flatMap_cons, List.append_assoc, List.foldl_cons] at hk ⊢
    rw [walkChunks_chunk (hc c (by simp)) _ _ hk]
    exact ih _ (fun x hx => hc x (by simp [hx])) le_rfl

/-- The MAC of a record is the 6 bytes from index 2. -/
theorem macAt_bytes (g : Bytes) (h : 8 ≤ g.length) : macBytes (macAt g 2) = (g.take 8).drop 2 := by
  match g with
  | _ :: _ :: _ :: _ :: _ :: _ :: _ :: _ :: _ => rfl
  | [] | [_] | [_, _] | [_, _, _] | [_, _, _, _] | [_, _, _, _, _] | [_, _, _, _, _, _] | [_, _, _, _, _, _, _] =>
    simp at h

/-! ### The sizes of a record (R286) -/

theorem svcKind_dispatch {body whole : Bytes} (r : Record) (hw : whole.length ≤ 20) (hb : body.length + 2 ≤ whole.length) :
    ∃ x, ItemFits x ∧ dispatchService body whole r = addItem x r := by
  unfold dispatchService
  split
  · split
    · rename_i u0 u1 rest _ k hk
      exact ⟨.svc (u16le u0 u1) k rest, ⟨by simp at hb; omega, hk⟩, rfl⟩
    · exact ⟨.raw whole, hw, rfl⟩
  · exact ⟨.raw whole, hw, rfl⟩

/-- One chunk adds at most one item, which fits, and may set a name, which fits. -/
theorem dispatchChunk_fits (t : Byte) {body whole : Bytes} (r : Record) (hw : whole.length ≤ 20)
    (hb : body.length + 2 ≤ whole.length) :
    (dispatchChunk t body whole r).mac = r.mac
      ∧ (RecordNameFits r.name → RecordNameFits (dispatchChunk t body whole r).name)
      ∧ ∃ l, l.length ≤ 1 ∧ (∀ x ∈ l, ItemFits x) ∧ (dispatchChunk t body whole r).data = r.data ++ l := by
  have raw : ∃ l, l.length ≤ 1 ∧ (∀ x ∈ l, ItemFits x) ∧ (addItem (.raw whole) r).data = r.data ++ l :=
    ⟨[.raw whole], by simp, by simpa [ItemFits] using hw, rfl⟩
  have none : ∃ l : List Item, l.length ≤ 1 ∧ (∀ x ∈ l, ItemFits x) ∧ r.data = r.data ++ l :=
    ⟨[], by simp, by simp, by simp⟩
  unfold dispatchChunk
  split
  · exact ⟨rfl, id, none⟩
  split
  · split
    · exact ⟨rfl, id, none⟩
    · exact ⟨rfl, id, raw⟩
  split
  · refine ⟨rfl, fun _ => ?_, none⟩
    split <;> rename_i hv <;> simp [RecordNameFits, hv] <;> omega
  split
  · obtain ⟨x, hx, e⟩ := svcKind_dispatch r hw hb
    rw [e]
    exact ⟨rfl, id, [x], by simp, by simpa using hx, rfl⟩
  · exact ⟨rfl, id, raw⟩

/-- What the walk over a region of at most 20 bytes adds to a record. -/
theorem walkChunks_fits (k : Nat) (ad : Bytes) (r : Record) (h : ad.length ≤ 20) :
    (walkChunks k ad r).mac = r.mac
      ∧ (RecordNameFits r.name → RecordNameFits (walkChunks k ad r).name)
      ∧ ∃ l, 2 * l.length ≤ ad.length + 1 ∧ (∀ x ∈ l, ItemFits x) ∧ (walkChunks k ad r).data = r.data ++ l := by
  induction k generalizing ad r with
  | zero =>
    cases ad <;> exact ⟨rfl, id, [], by simp, by simp, by simp [walkChunks]⟩
  | succ k ih =>
    match ad with
    | [] => exact ⟨rfl, id, [], by simp, by simp, by simp [walkChunks]⟩
    | size :: ad =>
      simp only [walkChunks]
      split
      · exact ⟨rfl, id, [.raw (size :: ad)], by simp, by simpa [ItemFits] using h, rfl⟩
      · rename_i hs
        simp only [List.length_cons] at h
        have hwl : (size :: ad.take size.toNat).length = size.toNat + 1 := by simp; omega
        have hbl : ((ad.take size.toNat).tail).length + 2 ≤ (size :: ad.take size.toNat).length := by simp; omega
        obtain ⟨m1, n1, l1, a1, f1, d1⟩ := dispatchChunk_fits (ad.headD 0#8) r (by omega) hbl
        obtain ⟨m2, n2, l2, a2, f2, d2⟩ := ih (ad.drop size.toNat)
          (dispatchChunk (ad.headD 0#8) ((ad.take size.toNat).tail) (size :: ad.take size.toNat) r) (by simp; omega)
        refine ⟨m2.trans m1, n2 ∘ n1, l1 ++ l2, ?_, ?_, ?_⟩
        · simp at a2 ⊢; omega
        · intro x hx
          rcases List.mem_append.mp hx with hx | hx
          · exact f1 x hx
          · exact f2 x hx
        · rw [d2, d1, List.append_assoc]

/-- A record from an accepted buffer fits, and carries the buffer's MAC. -/
theorem parseRecord_fits {f g : Bytes} {e : Nat} (h : Accepted f g e) :
    RecordFits (parseRecord g e) ∧ (parseRecord g e).mac = macAt g 2 := by
  obtain ⟨h8, h28, hl⟩ := h.sizes
  have had : ((g.take e).drop parseStart).length ≤ 20 := by simp [parseStart]; omega
  obtain ⟨hm, hn, l, hl2, hf, hd⟩ := walkChunks_fits ((g.take e).drop parseStart).length ((g.take e).drop parseStart)
    { mac := macAt g 2, name := .absent, power := none, data := [] } had
  refine ⟨⟨hn trivial, ?_, ?_⟩, hm⟩
  · show (walkChunks _ _ _).data.length ≤ 10
    rw [hd]; simp; omega
  · show ∀ x ∈ (walkChunks _ _ _).data, ItemFits x
    rw [hd]; simpa using hf

/-- A record that is received is one a validated PDU gives. -/
theorem receive_validated {i : Fin 3} {raw : Bytes} {r : Record} (h : receive i raw = some r) : ValidatedRecord r :=
  let ⟨g, e, ha, hr⟩ := receive_some h
  ⟨_, g, e, ha, hr⟩

theorem ValidatedRecord.fits {r : Record} (h : ValidatedRecord r) : RecordFits r := by
  obtain ⟨_, _, _, ha, rfl⟩ := h
  exact (parseRecord_fits ha).1

/-! ### The open service UUIDs (R276, D18) -/

/-- `skipping a` meets every number but `a`, and no other. -/
theorem skipping_surjective {a m : Nat} (h : m ≠ a) : ∃ n, skipping a n = m ∧ (a < m → n + 1 = m) ∧ (m < a → n = m) := by
  rcases Nat.lt_or_gt_of_ne h with h | h
  · exact ⟨m, by simp [skipping, h], by omega, by omega⟩
  · exact ⟨m - 1, by unfold skipping; split <;> omega, by omega, by omega⟩

theorem temperatureUuidOf_toNat (i : Fin 65535) : (temperatureUuidOf i).toNat = skipping 0x180F i.val := by
  have := i.isLt
  simp only [temperatureUuidOf, skipping, BitVec.toNat_ofNat]; split <;> omega

theorem urlUuidOf_toNat (t : U16) (i : Fin 65534) : (urlUuidOf t i).toNat
    = skipping (max 0x180F t.toNat) (skipping (min 0x180F t.toNat) i.val) := by
  have := i.isLt
  simp only [urlUuidOf, skipping, BitVec.toNat_ofNat]; split_ifs <;> omega

/-- The temperature UUID is not the battery's, whatever the index. -/
theorem temperatureUuidOf_ne (i : Fin 65535) : temperatureUuidOf i ≠ 0x180F#16 := by
  intro h
  have ht := temperatureUuidOf_toNat i
  have hb : (0x180F#16).toNat = 0x180F := rfl
  rw [h] at ht; unfold skipping at ht; split at ht <;> omega

/-- The URL UUID is neither the battery's nor `t`, whatever the index. -/
theorem urlUuidOf_ne {t : U16} (ht : t ≠ 0x180F#16) (i : Fin 65534) : urlUuidOf t i ≠ 0x180F#16 ∧ urlUuidOf t i ≠ t := by
  have hn : t.toNat ≠ 0x180F := fun h => ht (BitVec.eq_of_toNat_eq h)
  have hu := urlUuidOf_toNat t i
  have hb : (0x180F#16).toNat = 0x180F := rfl
  constructor <;> intro h <;> rw [h] at hu <;> unfold skipping at hu <;> split_ifs at hu <;> omega

/-- Nothing but what D18 assumes is fixed: every pair of distinct UUIDs other than 0x180F is what some two indices give. -/
theorem serviceUuids_arbitrary {x y : U16} (hx : x ≠ 0x180F#16) (hy : y ≠ 0x180F#16) (hxy : y ≠ x) :
    ∃ i j, temperatureUuidOf i = x ∧ urlUuidOf x j = y := by
  have nx : x.toNat ≠ 0x180F := fun h => hx (BitVec.eq_of_toNat_eq h)
  have ny : y.toNat ≠ 0x180F := fun h => hy (BitVec.eq_of_toNat_eq h)
  have nxy : y.toNat ≠ x.toNat := fun h => hxy (BitVec.eq_of_toNat_eq h)
  have := x.isLt; have := y.isLt
  obtain ⟨i, hi, hi1, hi2⟩ := skipping_surjective nx
  obtain ⟨k, hk, hk1, hk2⟩ := skipping_surjective (a := max 0x180F x.toNat) (m := y.toNat) (by omega)
  obtain ⟨j, hj, hj1, hj2⟩ := skipping_surjective (a := min 0x180F x.toNat) (m := k) (by omega)
  exact ⟨⟨i, by omega⟩, ⟨j, by omega⟩, BitVec.eq_of_toNat_eq (by rw [temperatureUuidOf_toNat]; exact hi),
    BitVec.eq_of_toNat_eq (by rw [urlUuidOf_toNat]; simp only [hj, hk])⟩

theorem uuidTemperature_ne_battery : uuidTemperature ≠ batteryUuid := temperatureUuidOf_ne _

theorem uuidUrl_ne_battery : uuidUrl ≠ batteryUuid := (urlUuidOf_ne uuidTemperature_ne_battery _).1

theorem uuidUrl_ne_uuidTemperature : uuidUrl ≠ uuidTemperature :=
  (urlUuidOf_ne uuidTemperature_ne_battery _).2

/-! ### UTF-8 (R275) -/

theorem inRange_iff {lo hi : Nat} {b : Byte} : inRange lo hi b = true ↔ Between lo hi b := by
  simp [inRange, Between]

/-- A well-formed sequence at the front is passed over. -/
theorem validUtf8_sequence {x : Bytes} (h : Utf8Sequence x) (b : Bytes) : validUtf8 (x ++ b) = validUtf8 b := by
  cases h <;> simp only [List.cons_append, List.nil_append] <;> conv_lhs => unfold validUtf8
  all_goals
    simp only [Between, inRange] at *
    simp only [Bool.and_eq_true, Bool.or_eq_true, decide_eq_true_eq]
    split_ifs <;> first | rfl | (exfalso; omega)

end Sys2Proof.Machine
end

