-- ==== Sys2Proof/Laws/Exec.lean ====
section
/-! SUPPORT. What every command does: it answers once, with a status, an engine state and radio transactions. The claims
over all commands rest on `exec_answers`, so that `exec` is not unfolded again for each of them. -/

namespace Sys2Proof.Machine

/-- `t` is `s` after a command: the engine is `e`, the radio carried `es`, the response is `c :: b`; which free draws were
taken is not said. -/
structure After (s t : State) (e : Engine) (es : List RadioEvent) (c : Byte) (b : Bytes) : Prop where
  eng : t.eng = e
  radioLog : t.radioLog = s.radioLog ++ es
  responses : t.responses = s.responses ++ [c :: b]
  hpc : t.hpc = s.hpc + 1
  cmdIn : t.cmdIn = s.cmdIn
  quiet : es = [] → c ≠ 0x00#8 → t.feed = s.feed ∧ t.draws = s.draws

theorem after_respond {s : State} {c : Byte} {b : Bytes} : After s (respond (c :: b) s) s.eng [] c b :=
  ⟨rfl, by simp, rfl, rfl, rfl, fun _ _ => ⟨rfl, rfl⟩⟩

@[simp] theorem afterPower_eng (s : State) : (afterPower s).eng = s.eng := by unfold afterPower; split <;> rfl

@[simp] theorem afterPower_responses (s : State) : (afterPower s).responses = s.responses := by
  unfold afterPower; split <;> rfl

@[simp] theorem afterPower_radioLog (s : State) : (afterPower s).radioLog = s.radioLog := by
  unfold afterPower; split <;> rfl

@[simp] theorem afterPower_hpc (s : State) : (afterPower s).hpc = s.hpc := by unfold afterPower; split <;> rfl

@[simp] theorem afterPower_cmdIn (s : State) : (afterPower s).cmdIn = s.cmdIn := by unfold afterPower; split <;> rfl

/-- A command that carries a payload: over budget, or assembled, or advertised. The engine stays. -/
theorem exec_payload {i : Instr} {h : Nat} (hp : payloadSize i = some h) (s : State) :
    ∃ t es c b, exec i s = .next t ∧ After s t s.eng es c b ∧
      ((budgetLeft s.eng h < 0 ∧ c = 0x11#8 ∧ b = le16 (BitVec.ofNat 16 (-(budgetLeft s.eng h)).toNat) ∧ es = [])
        ∨ (0 ≤ budgetLeft s.eng h ∧ ¬ Transmits i ∧ c = 0x00#8 ∧ es = powerEvents s)
        ∨ (0 ≤ budgetLeft s.eng h ∧ Transmits i ∧ ∃ f ok, es = powerEvents s ++ [.setListen false, .write f ok]
            ∧ c = (if ok then 0x00#8 else 0x21#8) ∧ b = [])) := by
  by_cases ht : Transmits i
  · rw [exec_advertise hp ht]
    by_cases hb : budgetLeft s.eng h < 0
    · rw [advertisePayload_over hb]
      exact ⟨_, _, _, _, rfl, after_respond, .inl ⟨hb, rfl, rfl, rfl⟩⟩
    · rw [advertisePayload_within (by simpa using hb)]
      refine ⟨_, powerEvents s ++ [.setListen false,
          .write (onAir s.eng.chanIdx (pdu s.eng { h := h, bytes := payloadBytes i } (powerByte s)))
            (nextBool (afterPower s))],
        if nextBool (afterPower s) then 0x00#8 else 0x21#8, [], rfl, ?_,
        .inr (.inr ⟨by omega, ht, _, _, rfl, rfl, rfl⟩)⟩
      exact ⟨rfl, by simp [answeredWith], by cases nextBool (afterPower s) <;> simp [answeredWith],
        by simp [answeredWith], by simp [answeredWith], by simp⟩
  · rw [exec_assemble hp ht]
    by_cases hb : budgetLeft s.eng h < 0
    · rw [assemblePayload_over hb]
      exact ⟨_, _, _, _, rfl, after_respond, .inl ⟨hb, rfl, rfl, rfl⟩⟩
    · rw [assemblePayload_within (by simpa using hb)]
      exact ⟨_, powerEvents s, 0x00#8, pdu s.eng { h := h, bytes := payloadBytes i } (powerByte s), rfl,
        ⟨rfl, by simp [answeredWith], by simp [answeredWith], by simp [answeredWith], by simp [answeredWith], by simp⟩, .inr (.inl ⟨by omega, ht, rfl, rfl⟩)⟩

/-- What a command without a payload does to the engine, what its radio carries and which status it answers, by command
(R131–R285). -/
def Effect (i : Instr) (s : State) (e : Engine) (es : List RadioEvent) (c : Byte) (b : Bytes) : Prop :=
  match i with
  | .revb _ | .revbuf _ | .whiten _ _ | .whitench _ | .crc24 _ _ _ | .getcfg | .lenavail _ | .decode _ =>
    e = s.eng ∧ es = [] ∧ c = 0x00#8
  | .chunk _ d => e = s.eng ∧ es = [] ∧ ((d.length < 255 ∧ c = 0x00#8) ∨ (255 ≤ d.length ∧ c = 0x10#8 ∧ b = []))
  | .setmac d => es = [] ∧ ((d.length ≤ 6 ∧ c = 0x00#8 ∧ ∃ m, e = { s.eng with mac := m })
      ∨ (6 < d.length ∧ c = 0x03#8 ∧ b = [] ∧ e = s.eng))
  | .setname d => es = [] ∧
      ((d.length ≤ (if s.eng.showPower then 15 else 18) ∧ c = 0x00#8 ∧ e = { s.eng with name := some d })
        ∨ ((if s.eng.showPower then 15 else 18) < d.length ∧ c = 0x12#8 ∧ b = [] ∧ e = s.eng))
  | .clrname => es = [] ∧ c = 0x00#8 ∧ e = { s.eng with name := none }
  | .setpwr a => es = [] ∧
      ((a = 0x00#8 ∧ c = 0x00#8 ∧ e = { s.eng with showPower := false })
        ∨ (a = 0x01#8 ∧ (∀ n, s.eng.name = some n → n.length ≤ 16) ∧ c = 0x00#8 ∧ e = { s.eng with showPower := true })
        ∨ (a = 0x01#8 ∧ (∃ n, s.eng.name = some n ∧ 16 < n.length) ∧ c = 0x13#8 ∧ b = [] ∧ e = s.eng)
        ∨ (1 < a.toNat ∧ c = 0x03#8 ∧ b = [] ∧ e = s.eng))
  | .beginRadio =>
      (c = 0x00#8 ∧ e = { s.eng with chanIdx := 0, configured := true }
          ∧ es = .beginRadio true :: (beginConfig ++ [.setChannel (freq 0), .setPower true, .setListen true]))
        ∨ (c = 0x20#8 ∧ b = [] ∧ e = s.eng ∧ es = [.beginRadio false])
  | .hop => c = 0x00#8 ∧ ∃ j, e = { s.eng with chanIdx := j } ∧ es = [.setChannel (freq j)]
  | .poll => c = 0x00#8 ∧
      (e = s.eng ∨ ∃ r, ValidatedRecord r ∧ e = { s.eng with rxq := s.eng.rxq ++ [r] })
      ∧ (es = [.available false] ∨ ∃ n raw, es = [.available true, .getPayloadSize n, .read n raw])
  | .read => c = 0x00#8 ∧ es = [] ∧ e = { s.eng with rxq := s.eng.rxq.tail }
  | .assemble _ _ | .asmseq _ | .adv _ _ | .advseq _ => False

theorem nameLimit_eq (e : Engine) : nameLimit e = if e.showPower then 15 else 18 := by
  unfold nameLimit powerTerm nameLimitBase powerChunkLen; split <;> rfl

theorem setpwr_zero_or_one {a : Byte} (h : ¬ a.toNat > 1) : a = 0x00#8 ∨ a = 0x01#8 := by
  have : a.toNat = 0 ∨ a.toNat = 1 := by omega
  rcases this with h | h
  · exact .inl (BitVec.eq_of_toNat_eq h)
  · exact .inr (BitVec.eq_of_toNat_eq h)

theorem exec_setpwr_effect (a : Byte) (s : State) :
    ∃ t e es c b, exec (.setpwr a) s = .next t ∧ After s t e es c b ∧ Effect (.setpwr a) s e es c b := by
  unfold exec execSetpwr
  by_cases h1 : a.toNat > 1
  · simp only [h1, if_true]
    exact ⟨_, _, _, _, _, rfl, after_respond, rfl, .inr (.inr (.inr ⟨h1, rfl, rfl, rfl⟩))⟩
  · simp only [h1, if_false]
    rcases setpwr_zero_or_one h1 with rfl | rfl
    · exact ⟨_, _, _, _, _, rfl, ⟨rfl, by simp, rfl, rfl, rfl, by simp [statusOk]⟩, rfl, .inl ⟨rfl, rfl, rfl⟩⟩
    · split
      · rename_i h
        refine ⟨_, _, _, _, _, rfl, after_respond, rfl, .inr (.inr (.inl ⟨rfl, ?_, rfl, rfl, rfl⟩))⟩
        obtain ⟨-, hn, hl⟩ := h
        obtain ⟨n, hn⟩ := Option.isSome_iff_exists.mp hn
        exact ⟨n, hn, by simpa [nameLen, hn, powerEnableNameLimit] using hl⟩
      · rename_i h
        refine ⟨_, _, _, _, _, rfl, ⟨rfl, by simp, rfl, rfl, rfl, by simp [statusOk]⟩, rfl,
          .inr (.inl ⟨rfl, ?_, rfl, rfl⟩)⟩
        intro n hn
        simp only [hn, nameLen, powerEnableNameLimit] at h
        simpa using h

/-- POLL's transactions when nothing is ready (R280). -/
theorem pollRadio_idle {s : State} (h : nextBool s = false) :
    pollRadio s = logEvents [.available false] (takeBool s) := by simp [pollRadio, h]

/-- POLL's transactions when a payload is ready (R280). -/
theorem pollRadio_ready {s : State} (h : nextBool s = true) :
    pollRadio s = enqueue (receive s.eng.chanIdx (nextBytes (takeByte (takeBool s))))
      (logEvents [.available true, .getPayloadSize (nextByte (takeBool s)),
        .read (nextByte (takeBool s)) (nextBytes (takeByte (takeBool s)))] (takeBytes (takeByte (takeBool s)))) := by
  have e : ∀ es u, nextByte (logEvents es u) = nextByte u := fun _ _ => rfl
  have e' : ∀ es u, nextBytes (logEvents es u) = nextBytes u := fun _ _ => rfl
  have e'' : nextBytes (takeByte (logEvents [.available true] (takeBool s))) = nextBytes (takeByte (takeBool s)) := rfl
  simp only [pollRadio, h, if_true, radioAvailable_eq, radioGetPayloadSize_eq, radioRead_eq, e, e', e'']
  congr 1
  simp [logEvents, takeBytes, takeByte, takeBool]

theorem exec_poll_effect (s : State) :
    ∃ t e es c b, exec .poll s = .next t ∧ After s t e es c b ∧ Effect .poll s e es c b := by
  unfold exec execPoll
  cases h : nextBool s with
  | false =>
    rw [pollRadio_idle h]
    exact ⟨_, s.eng, [.available false], 0x00#8, _, rfl, ⟨rfl, by simp, by simp [statusOk]; rfl, rfl, rfl, by simp⟩, rfl,
      .inl rfl, .inl rfl⟩
  | true =>
    rw [pollRadio_ready h]
    cases hr : receive s.eng.chanIdx (nextBytes (takeByte (takeBool s))) with
    | none =>
      exact ⟨_, s.eng, [.available true, .getPayloadSize (nextByte (takeBool s)),
        .read (nextByte (takeBool s)) (nextBytes (takeByte (takeBool s)))], 0x00#8, _, rfl,
        ⟨rfl, by simp [enqueue], by simp [enqueue, statusOk]; rfl, rfl, rfl, by simp⟩,
        rfl, .inl rfl, .inr ⟨_, _, rfl⟩⟩
    | some r =>
      exact ⟨_, _, [.available true, .getPayloadSize (nextByte (takeBool s)),
        .read (nextByte (takeBool s)) (nextBytes (takeByte (takeBool s)))], 0x00#8, _, rfl,
        ⟨rfl, by simp [enqueue], by simp [enqueue, statusOk]; rfl, rfl, rfl, by simp⟩,
        rfl, .inr ⟨r, receive_validated hr, rfl⟩, .inr ⟨_, _, rfl⟩⟩

/-- Every command answers once, in every state, with the engine state, the transactions and the status its rule gives. -/
theorem exec_answers (i : Instr) (s : State) :
    ∃ t e es c b, exec i s = .next t ∧ After s t e es c b ∧
      (Effect i s e es c b ∨
        ∃ h, payloadSize i = some h ∧ e = s.eng ∧
          ((budgetLeft s.eng h < 0 ∧ c = 0x11#8 ∧ b = le16 (BitVec.ofNat 16 (-(budgetLeft s.eng h)).toNat) ∧ es = [])
            ∨ (0 ≤ budgetLeft s.eng h ∧ ¬ Transmits i ∧ c = 0x00#8 ∧ es = powerEvents s)
            ∨ (0 ≤ budgetLeft s.eng h ∧ Transmits i ∧ ∃ f ok, es = powerEvents s ++ [.setListen false, .write f ok]
                ∧ c = (if ok then 0x00#8 else 0x21#8) ∧ b = []))) := by
  have ok : ∀ (b : Bytes), After s (respondOk b s) s.eng [] 0x00#8 b := fun _ => after_respond
  have payload : ∀ h, payloadSize i = some h → _ := fun h hp => exec_payload hp s
  cases i
  case revb a => exact ⟨_, _, _, _, _, rfl, ok _, .inl ⟨rfl, rfl, rfl⟩⟩
  case revbuf d => exact ⟨_, _, _, _, _, rfl, ok _, .inl ⟨rfl, rfl, rfl⟩⟩
  case whiten a d => exact ⟨_, _, _, _, _, rfl, ok _, .inl ⟨rfl, rfl, rfl⟩⟩
  case whitench d => exact ⟨_, _, _, _, _, rfl, ok _, .inl ⟨rfl, rfl, rfl⟩⟩
  case crc24 p q d => exact ⟨_, _, _, _, _, rfl, ok _, .inl ⟨rfl, rfl, rfl⟩⟩
  case getcfg => exact ⟨_, _, _, _, _, rfl, ok _, .inl ⟨rfl, rfl, rfl⟩⟩
  case lenavail a => exact ⟨_, _, _, _, _, rfl, ok _, .inl ⟨rfl, rfl, rfl⟩⟩
  case decode d => exact ⟨_, _, _, _, _, rfl, ok _, .inl ⟨rfl, rfl, rfl⟩⟩
  case chunk a d =>
    unfold exec execChunk
    by_cases h : d.length + 1 > 255
    · simp only [h, if_true]
      exact ⟨_, _, _, _, _, rfl, after_respond, .inl ⟨rfl, rfl, .inr ⟨by omega, rfl, rfl⟩⟩⟩
    · simp only [h, if_false]
      exact ⟨_, _, _, _, _, rfl, ok _, .inl ⟨rfl, rfl, .inl ⟨by omega, rfl⟩⟩⟩
  case setmac d =>
    unfold exec execSetmac
    by_cases h : d.length > 6
    · simp only [h, if_true]
      exact ⟨_, _, _, _, _, rfl, after_respond, .inl ⟨rfl, .inr ⟨h, rfl, rfl, rfl⟩⟩⟩
    · by_cases h6 : d.length = 6
      · simp only [h6, if_true]
        exact ⟨_, _, [], _, _, rfl, ⟨rfl, by simp, rfl, rfl, rfl, by simp [statusOk]⟩,
          .inl ⟨rfl, .inl ⟨by omega, rfl, _, rfl⟩⟩⟩
      · simp only [h, h6, if_false]
        exact ⟨_, _, [], _, _, rfl, ⟨rfl, by simp, rfl, rfl, rfl, by simp [statusOk]⟩,
          .inl ⟨rfl, .inl ⟨by omega, rfl, _, rfl⟩⟩⟩
  case setname d =>
    have hl := nameLimit_eq s.eng
    unfold exec execSetname
    by_cases h : d.length > nameLimit s.eng
    · simp only [h, if_true]
      exact ⟨_, _, _, _, _, rfl, after_respond, .inl ⟨rfl, .inr ⟨hl ▸ h, rfl, rfl, rfl⟩⟩⟩
    · simp only [h, if_false]
      exact ⟨_, _, [], _, _, rfl, ⟨rfl, by simp, rfl, rfl, rfl, by simp [statusOk]⟩,
        .inl ⟨rfl, .inl ⟨hl ▸ not_lt.mp h, rfl, rfl⟩⟩⟩
  case clrname =>
    exact ⟨_, _, [], _, _, rfl, ⟨rfl, by simp, rfl, rfl, rfl, by simp [statusOk]⟩, .inl ⟨rfl, rfl, rfl⟩⟩
  case setpwr a =>
    obtain ⟨t, e, es, c, b, h1, h2, h3⟩ := exec_setpwr_effect a s
    exact ⟨t, e, es, c, b, h1, h2, .inl h3⟩
  case beginRadio =>
    unfold exec execBegin
    cases hb : nextBool s with
    | true =>
      exact ⟨_, _, .beginRadio true :: (beginConfig ++ [.setChannel (freq 0), .setPower true, .setListen true]), _, _, rfl,
        ⟨rfl, by simp [configureRadio, hb], rfl, rfl, rfl, by simp [statusOk]⟩, .inl (.inl ⟨rfl, rfl, rfl⟩)⟩
    | false =>
      exact ⟨_, _, [.beginRadio false], _, _, rfl, ⟨rfl, by simp [hb], rfl, rfl, rfl, by simp⟩,
        .inl (.inr ⟨rfl, rfl, rfl, rfl⟩)⟩
  case hop =>
    exact ⟨_, _, [.setChannel _], _, _, rfl, ⟨rfl, rfl, rfl, rfl, rfl, by simp⟩, .inl ⟨rfl, _, rfl, rfl⟩⟩
  case poll =>
    obtain ⟨t, e, es, c, b, h1, h2, h3⟩ := exec_poll_effect s
    exact ⟨t, e, es, c, b, h1, h2, .inl h3⟩
  case read =>
    exact ⟨_, _, [], _, _, rfl, ⟨rfl, by simp, rfl, rfl, rfl, by simp [statusOk]⟩, .inl ⟨rfl, rfl, rfl⟩⟩
  all_goals
    obtain ⟨t, es, c, b, h1, h2, h3⟩ := payload _ rfl
    exact ⟨t, s.eng, es, c, b, h1, h2, .inr ⟨_, rfl, rfl, h3⟩⟩

/-! ### Over the budget (R327) -/

/-- A command that carries a payload over budget answers the amount and nothing else (R235). -/
theorem exec_over {i : Instr} {h : Nat} (hp : payloadSize i = some h) {s : State} (hb : budgetLeft s.eng h < 0) :
    exec i s = .next (answered s (0x11#8 :: le16 (BitVec.ofNat 16 (-(budgetLeft s.eng h)).toNat))) := by
  by_cases ht : Transmits i
  · rw [exec_advertise hp ht, advertisePayload_over hb]; rfl
  · rw [exec_assemble hp ht, assemblePayload_over hb]; rfl

theorem flatten_length_le {seq : List Bytes} (h : ∀ d ∈ seq, d.length ≤ 255) : seq.flatten.length ≤ 255 * seq.length := by
  induction seq with
  | nil => simp
  | cons d seq ih =>
    have h1 := h d List.mem_cons_self
    have h2 := ih fun x hx => h x (List.mem_cons_of_mem _ hx)
    simp only [List.flatten_cons, List.length_append, List.length_cons]; omega

/-- The longest payload a frame can carry: 255 buffers of 255 bytes (R93, R235). -/
theorem payloadSize_le {i : Instr} {h : Nat} (hp : payloadSize i = some h) (hw : i.wellFormed = true) : h ≤ 65025 := by
  have single : ∀ d : Bytes, bufferFits d = true → d.length + 2 ≤ 65025 := fun d hd => by
    have := bufferFits_iff.mp hd; omega
  have sequence : ∀ seq : List Bytes, sequenceFits seq = true → seq.flatten.length ≤ 65025 := fun seq hs => by
    simp only [sequenceFits, Bool.and_eq_true, decide_eq_true_eq, List.all_eq_true, bufferFits_iff] at hs
    have := flatten_length_le hs.2; omega
  cases i <;> simp only [payloadSize, Option.some.injEq, reduceCtorEq] at hp <;> subst hp
  · exact single _ hw
  · exact sequence _ hw
  · exact single _ hw
  · exact sequence _ hw

theorem budgetLeft_ge {e : Engine} (hn : NameFits e) (h : Nat) : -5 - (h : Int) ≤ budgetLeft e h := by
  unfold budgetLeft
  unfold NameFits at hn
  cases hs : e.showPower <;> cases hx : e.name <;> simp [hs, hx] at hn ⊢ <;> omega

/-- Two bytes, low byte first, carry a 16-bit amount. -/
theorem amount_le16 {n : Nat} (h : n < 65536) :
    ((BitVec.ofNat 16 n).extractLsb' 0 8).toNat + 256 * ((BitVec.ofNat 16 n).extractLsb' 8 8).toNat = n := by
  simp [Nat.shiftRight_eq_div_pow]; omega

end Sys2Proof.Machine
end

