-- ==== Sys2Proof/Laws/Records.lean ====
section
/-! SUPPORT. The record encoding loses nothing (R286), an assembled PDU is accepted (R231, R272), and a chunk is kept as the
item the round trip expects (R274, R287). -/

namespace Sys2Proof.Machine

/-! ### The record encoding (R286) -/

theorem lenBytes_injective {a b x y : Bytes} (ha : a.length ≤ 255) (hb : b.length ≤ 255)
    (h : lenBytes a ++ x = lenBytes b ++ y) : a = b ∧ x = y := by
  simp only [lenBytes, List.cons_append, List.cons.injEq] at h
  have hl := congrArg BitVec.toNat h.1
  rw [toNat_ofNat_length ha, toNat_ofNat_length hb] at hl
  exact List.append_inj h.2 hl

theorem le16_append (v : U16) : (v.extractLsb' 8 8 ++ v.extractLsb' 0 8 : U16) = v := by
  apply BitVec.eq_of_getLsbD_eq
  intro k hk
  rw [BitVec.getLsbD_append]
  split
  · rename_i h; simp [h]
  · rename_i h; simp [show k - 8 < 8 by omega, show 8 + (k - 8) = k by omega]

theorem le16_injective {u v : U16} (h : le16 u = le16 v) : u = v := by
  simp only [le16, List.cons.injEq, and_true] at h
  rw [← le16_append u, ← le16_append v, h.1, h.2]

theorem encItem_injective {a b : Item} {x y : Bytes} (ha : ItemFits a) (hb : ItemFits b)
    (h : encItem a ++ x = encItem b ++ y) : a = b ∧ x = y := by
  cases a with
  | raw p =>
    cases b with
    | raw q =>
      simp only [encItem, List.cons_append, List.cons.injEq, true_and] at h
      simp only [ItemFits] at ha hb
      obtain ⟨rfl, rfl⟩ := lenBytes_injective (by omega) (by omega) h
      exact ⟨rfl, rfl⟩
    | svc v l q => simp [encItem] at h
  | svc u k p =>
    cases b with
    | raw q => simp [encItem] at h
    | svc v l q =>
      obtain ⟨hp, hk⟩ := ha
      obtain ⟨hq, hl⟩ := hb
      simp only [encItem, List.cons_append, List.append_assoc, List.cons.injEq, true_and] at h
      obtain ⟨h1, h2⟩ := List.append_inj h rfl
      obtain rfl := le16_injective h1
      obtain rfl : k = l := Option.some.inj (hk.symm.trans hl)
      simp only [List.cons.injEq, true_and] at h2
      obtain ⟨rfl, rfl⟩ := lenBytes_injective (by omega) (by omega) h2
      exact ⟨rfl, rfl⟩

theorem encItems_injective {l m : List Item} (hl : ∀ x ∈ l, ItemFits x) (hm : ∀ x ∈ m, ItemFits x)
    (hn : l.length = m.length) (h : l.flatMap encItem = m.flatMap encItem) : l = m := by
  induction l generalizing m with
  | nil => exact (List.length_eq_zero_iff.mp hn.symm).symm
  | cons a l ih =>
    cases m with
    | nil => simp at hn
    | cons b m =>
      simp only [List.flatMap_cons] at h
      obtain ⟨rfl, h'⟩ := encItem_injective (hl a List.mem_cons_self) (hm b List.mem_cons_self) h
      rw [ih (fun x hx => hl x (List.mem_cons_of_mem _ hx)) (fun x hx => hm x (List.mem_cons_of_mem _ hx))
        (by simpa using hn) h']

/-! ### An assembled PDU, received (R231, R272) -/

/-- A PDU is a body and the CRC of it. -/
theorem referencePdu_split (s : State) (p : Bytes) :
    ∃ body, referencePdu s p = body ++ wideCrc24 body 0x00065B 0x555555
      ∧ body = pduBody s.eng { h := p.length, bytes := p } (powerByte s)
      ∧ (body.length : Int) = 29 - budgetLeft s.eng p.length := by
  refine ⟨_, ?_, rfl, pduBody_length s p⟩
  rw [← pdu_eq_referencePdu, pdu, crcBle_eq_wideCrc24]

theorem referencePdu_lengthByte (s : State) (p : Bytes) :
    (referencePdu s p)[1]? = some (BitVec.ofNat 8 (30 - budgetLeft s.eng p.length).toNat) := by
  simp [referencePdu]

theorem lengthByte_toNat {s : State} {p : Bytes} (h : 0 ≤ budgetLeft s.eng p.length) :
    (BitVec.ofNat 8 (30 - budgetLeft s.eng p.length).toNat).toNat = (30 - budgetLeft s.eng p.length).toNat := by
  simp; omega

theorem macAt_referencePdu (s : State) (p : Bytes) : macAt (referencePdu s p) 2 = s.eng.mac := by
  simp [macAt, referencePdu]

/-- A PDU that leaves a byte of the budget unused passes the receive checks. -/
theorem referencePdu_accepted {s : State} {p : Bytes} (hb : 0 < budgetLeft s.eng p.length) :
    ∃ body, body = pduBody s.eng { h := p.length, bytes := p } (powerByte s)
      ∧ (referencePdu s p).take body.length = body
      ∧ Accepted (referencePdu s p) (referencePdu s p) body.length := by
  obtain ⟨body, h1, h2, h3⟩ := referencePdu_split s p
  have hle := budgetLeft_le s.eng p.length
  have hlen := referencePdu_length s p
  have hl := lengthByte_toNat (s := s) (p := p) (by omega)
  have ht : (referencePdu s p).take body.length = body := by rw [h1]; simp
  refine ⟨body, h2, ht, _, referencePdu_lengthByte s p, by omega, by omega, ?_, by omega, by omega, ?_⟩
  · rw [List.take_of_length_le]; omega
  · rw [ht, h1]; simp

/-! ### Chunks and items (R274, R287) -/

/-- Every AD region is whole chunks and a tail at which the walk stops (R273). -/
theorem adRegion_split (n : Nat) (ad : Bytes) (h : ad.length ≤ n) :
    ∃ (cs : List AdChunk) (tail : Bytes), (∀ c ∈ cs, AdChunkFits c) ∧ UnparsedTail tail
      ∧ ad = cs.flatMap adChunkBytes ++ tail := by
  induction n generalizing ad with
  | zero => exact ⟨[], [], by simp, trivial, by simpa using h⟩
  | succ n ih =>
    match ad with
    | [] => exact ⟨[], [], by simp, trivial, rfl⟩
    | size :: rest =>
      by_cases hs : size.toNat = 0 ∨ rest.length < size.toNat
      · exact ⟨[], size :: rest, by simp, hs, rfl⟩
      · match rest with
        | [] => simp at hs
        | t :: rest =>
          simp only [List.length_cons] at h hs
          have hlt := size.isLt
          obtain ⟨cs, tail, hc, ht, e⟩ := ih (rest.drop (size.toNat - 1)) (by simp; omega)
          have hb : (rest.take (size.toNat - 1)).length = size.toNat - 1 := by simp; omega
          refine ⟨(t, rest.take (size.toNat - 1)) :: cs, tail, ?_, ht, ?_⟩
          · intro c hc'
            rcases List.mem_cons.mp hc' with rfl | hc'
            · simp only [AdChunkFits, hb]; omega
            · exact hc c hc'
          · have hz : BitVec.ofNat 8 (size.toNat - 1 + 1) = size := by
              rw [show size.toNat - 1 + 1 = size.toNat by omega]; simp
            rw [List.flatMap_cons, List.append_assoc, ← e]
            simp only [adChunkBytes, hb, hz, List.cons_append, List.take_append_drop]

theorem dispatchChunk_expected {c : AdChunk} (r : Record) (h1 : c.1 ≠ 0x01#8) (h2 : c.1 ≠ 0x08#8) (h3 : c.1 ≠ 0x0A#8) :
    dispatchChunk c.1 c.2 (adChunkBytes c) r = addItem (expectedItem c) r := by
  obtain ⟨t, b⟩ := c
  simp only at h1 h2 h3
  simp only [dispatchChunk, flagsType, powerType, nameType, svcType, h1, h2, h3, if_false]
  unfold expectedItem dispatchService u16le
  by_cases h : t = 0x16#8
  · simp only [h, if_true]
    match b with
    | [] | [_] => rfl
    | u0 :: u1 :: rest => simp only; cases svcKind (u1 ++ u0) <;> rfl
  · simp only [h, if_false]
    match b with
    | [] | [_] => rfl
    | u0 :: u1 :: rest => rfl

theorem dispatchChunks_expected (cs : List AdChunk) (r : Record)
    (h : ∀ c ∈ cs, c.1 ≠ 0x01#8 ∧ c.1 ≠ 0x08#8 ∧ c.1 ≠ 0x0A#8) :
    cs.foldl (fun r c => dispatchChunk c.1 c.2 (adChunkBytes c) r) r
      = { r with data := r.data ++ cs.map expectedItem } := by
  induction cs generalizing r with
  | nil => simp
  | cons c cs ih =>
    obtain ⟨h1, h2, h3⟩ := h c List.mem_cons_self
    rw [List.foldl_cons, dispatchChunk_expected r h1 h2 h3, ih _ fun x hx => h x (List.mem_cons_of_mem _ hx)]
    simp [addItem]

theorem rechunk_expectedItem (c : AdChunk) : rechunk (expectedItem c) = adChunkBytes c := by
  obtain ⟨t, b⟩ := c
  unfold expectedItem
  match b with
  | [] | [_] => rfl
  | u0 :: u1 :: rest =>
    simp only
    split_ifs with h
    · subst h
      split
      · simp only [rechunk]
        rw [show (u1 ++ u0 : U16).extractLsb' 0 8 = u0 from BitVec.extractLsb'_append_eq_right,
          show (u1 ++ u0 : U16).extractLsb' 8 8 = u1 from BitVec.extractLsb'_append_eq_left]
      · rfl
    · rfl

end Sys2Proof.Machine
end

