-- ==== Sys2Proof/Tests/Slice0.lean ====
section
/-! SUPPORT. Small tests, whose expected values come from the spec (95_test_vectors.md and the examples of the rules), and
for every obligation with hypotheses a witness that meets them. -/

namespace Sys2Proof.Tests

open Sys2Proof.Machine

set_option Elab.async false

/-- The MAC the vectors use (95_test_vectors.md). -/
def mac : Mac := ⟨0x11#8, 0x22#8, 0x33#8, 0x44#8, 0x55#8, 0x66#8⟩

/-- The reset state with the vectors' MAC, a channel index, a name and a power flag. -/
def base (i : Fin 3) (n : Option Bytes) (p : Bool) : State :=
  { State.reset with
    eng := { chanIdx := i, mac := mac, name := n, showPower := p, configured := false, rxq := [] } }

/-- The reset state with the vectors' MAC. -/
def idle : State := base 0 none false

/-- `s` with one frame pending. -/
def withFrame (f : Bytes) (s : State) : State := { s with cmdIn := [f] }

/-- `s` with answers of the radio that stand ready. -/
def withAnswers (bools : List Bool) (bytes : List Byte) (bufs : List Bytes) (s : State) : State :=
  { s with feed := { bools := bools, bytes := bytes, bufs := bufs, macs := [] } }

/-- A field of the state after one step on the frame `f`. -/
def after {α : Type} (g : State → α) (f : Bytes) (s : State) : Option α :=
  match step (withFrame f s) with
  | .next t => some (g t)
  | .fault _ => none
  | .refused _ => none

/-- The response to the frame `f`. -/
def answer (f : Bytes) (s : State) : Option Bytes := (after (fun t => t.responses.getLast?) f s).join

/-- `n` bytes of value 0x41. -/
def letters (n : Nat) : Bytes := List.replicate n 0x41#8

/-! ### WellFormed: an ill-formed term for each check (R12, R91, R93) -/

theorem test_ill_formed_revbuf : (Instr.wellFormed (.revbuf (letters 256))) = false := by decide +kernel

theorem test_ill_formed_chunk : (Instr.wellFormed (.chunk 0x16#8 (letters 256))) = false := by decide +kernel

theorem test_ill_formed_whiten : (Instr.wellFormed (.whiten 0x65#8 (letters 256))) = false := by decide +kernel

theorem test_ill_formed_whitench : (Instr.wellFormed (.whitench (letters 256))) = false := by decide +kernel

theorem test_ill_formed_crc24 : (Instr.wellFormed (.crc24 0#24 0#24 (letters 256))) = false := by decide +kernel

theorem test_ill_formed_setmac : (Instr.wellFormed (.setmac (letters 256))) = false := by decide +kernel

theorem test_ill_formed_setname : (Instr.wellFormed (.setname (letters 256))) = false := by decide +kernel

theorem test_ill_formed_assemble : (Instr.wellFormed (.assemble 0xFF#8 (letters 256))) = false := by decide +kernel

theorem test_ill_formed_adv : (Instr.wellFormed (.adv 0xFF#8 (letters 256))) = false := by decide +kernel

theorem test_ill_formed_decode : (Instr.wellFormed (.decode (letters 256))) = false := by decide +kernel

theorem test_ill_formed_asmseq_buffer : (Instr.wellFormed (.asmseq [letters 256])) = false := by decide +kernel

theorem test_ill_formed_asmseq_count : (Instr.wellFormed (.asmseq (List.replicate 256 []))) = false := by decide +kernel

theorem test_ill_formed_advseq_buffer : (Instr.wellFormed (.advseq [[], letters 256])) = false := by decide +kernel

theorem test_ill_formed_advseq_count : (Instr.wellFormed (.advseq (List.replicate 256 []))) = false := by decide +kernel

/-! ### Decoding: a frame of every command, written out from R91 and R95 and the examples of the command rules -/

theorem test_decode_revb :
    decodeFrame [0x01#8, 0x01#8] = .ok (.revb 0x01#8) := rfl

theorem test_decode_revbuf :
    decodeFrame [0x02#8, 0x04#8, 0x01#8, 0x02#8, 0x03#8, 0x80#8] = .ok (.revbuf [0x01#8, 0x02#8, 0x03#8,
      0x80#8]) := rfl

theorem test_decode_chunk :
    decodeFrame [0x03#8, 0x16#8, 0x03#8, 0x0F#8, 0x18#8, 0x55#8] = .ok (.chunk 0x16#8 [0x0F#8, 0x18#8, 0x55#8]) := rfl

theorem test_decode_whiten :
    decodeFrame [0x08#8, 0x65#8, 0x04#8, 0x00#8, 0x00#8, 0x00#8, 0x00#8] = .ok (.whiten 0x65#8 [0x00#8, 0x00#8,
      0x00#8, 0x00#8]) := rfl

theorem test_decode_whitench :
    decodeFrame [0x09#8, 0x02#8, 0x12#8, 0x34#8] = .ok (.whitench [0x12#8, 0x34#8]) := rfl

theorem test_decode_crc24 :
    decodeFrame [0x0C#8, 0x5B#8, 0x06#8, 0x00#8, 0x56#8, 0x55#8, 0x54#8, 0x03#8, 0x01#8, 0x02#8,
      0x03#8] = .ok (.crc24 0x00065B#24 0x545556#24 [0x01#8, 0x02#8, 0x03#8]) := rfl

theorem test_decode_setmac :
    decodeFrame [0x10#8, 0x06#8, 0x11#8, 0x22#8, 0x33#8, 0x44#8, 0x55#8, 0x66#8] = .ok (.setmac [0x11#8, 0x22#8,
      0x33#8, 0x44#8, 0x55#8, 0x66#8]) := rfl

theorem test_decode_setname :
    decodeFrame [0x11#8, 0x05#8, 0x6E#8, 0x52#8, 0x46#8, 0x32#8, 0x34#8] = .ok (.setname [0x6E#8, 0x52#8, 0x46#8,
      0x32#8, 0x34#8]) := rfl

theorem test_decode_clrname :
    decodeFrame [0x12#8] = .ok (.clrname) := rfl

theorem test_decode_setpwr :
    decodeFrame [0x13#8, 0x01#8] = .ok (.setpwr 0x01#8) := rfl

theorem test_decode_getcfg :
    decodeFrame [0x14#8] = .ok (.getcfg) := rfl

theorem test_decode_begin :
    decodeFrame [0x20#8] = .ok (.beginRadio) := rfl

theorem test_decode_hop :
    decodeFrame [0x21#8] = .ok (.hop) := rfl

theorem test_decode_lenavail :
    decodeFrame [0x22#8, 0x05#8] = .ok (.lenavail 0x05#8) := rfl

theorem test_decode_assemble :
    decodeFrame [0x23#8, 0x16#8, 0x03#8, 0x0F#8, 0x18#8, 0x55#8] = .ok (.assemble 0x16#8 [0x0F#8, 0x18#8,
      0x55#8]) := rfl

theorem test_decode_asmseq :
    decodeFrame [0x24#8, 0x02#8, 0x05#8, 0x04#8, 0x16#8, 0x0F#8, 0x18#8, 0x55#8, 0x00#8] = .ok (.asmseq [[0x04#8,
      0x16#8, 0x0F#8, 0x18#8, 0x55#8], []]) := rfl

theorem test_decode_adv :
    decodeFrame [0x25#8, 0x16#8, 0x03#8, 0x0F#8, 0x18#8, 0x55#8] = .ok (.adv 0x16#8 [0x0F#8, 0x18#8, 0x55#8]) := rfl

theorem test_decode_advseq :
    decodeFrame [0x26#8, 0x01#8, 0x05#8, 0x04#8, 0x16#8, 0x0F#8, 0x18#8, 0x55#8] = .ok (.advseq [[0x04#8, 0x16#8,
      0x0F#8, 0x18#8, 0x55#8]]) := rfl

theorem test_decode_poll :
    decodeFrame [0x30#8] = .ok (.poll) := rfl

theorem test_decode_read :
    decodeFrame [0x31#8] = .ok (.read) := rfl

theorem test_decode_decode :
    decodeFrame [0x32#8, 0x01#8, 0xAB#8] = .ok (.decode [0xAB#8]) := rfl

/-- 95_test_vectors.md, section 2.10: an empty frame, an illegal opcode before any length, a missing operand. -/
theorem test_decode_refuses : decodeFrame [] = .error .emptyFrame
    ∧ decodeFrame [0x04#8, 0x01#8, 0x02#8, 0x03#8] = .error (.illegalOpcode 0x04#8)
    ∧ decodeFrame [0x01#8] = .error (.lengthMismatch 0x01#8) := ⟨rfl, rfl, rfl⟩

/-- 95_test_vectors.md, section 2.6: a missing second buffer, a trailing byte. -/
theorem test_decode_refuses_sequences :
    decodeFrame [0x24#8, 0x02#8, 0x02#8, 0x01#8, 0xFF#8] = .error (.lengthMismatch 0x24#8)
      ∧ decodeFrame [0x24#8, 0x01#8, 0x02#8, 0x01#8, 0xFF#8, 0x00#8] = .error (.lengthMismatch 0x24#8) := ⟨rfl, rfl⟩

/-- A table word: the opcode in bits 7..0, and the operand bytes it leaves out zero. -/
theorem test_table_word : decodeTableWord 8 0x21 = some .hop ∧ decodeTableWord 8 0x01 = some (.revb 0x00#8)
    ∧ decodeTableWord 16 0x0322 = some (.lenavail 0x03#8) ∧ decodeTableWord 8 0x0C = some (.crc24 0#24 0#24 [])
    ∧ decodeTableWord 24 0x020116 = none ∧ decodeTableWord 8 0x26 = some (.advseq []) := by decide +kernel

/-- The step after reset runs the command of a table word. -/
theorem test_fetch_word : step (State.reset.withFetchWord 8 0x21) = exec .hop State.reset := rfl

/-! ### Commands: 95_test_vectors.md, by section -/

/-- Section 2.1. -/
theorem test_revb :
    answer [0x01#8, 0x12#8] idle = some [0x00#8, 0x48#8] := by decide +kernel

/-- Section 2.1. -/
theorem test_revbuf :
    answer [0x02#8, 0x04#8, 0x01#8, 0x02#8, 0x03#8, 0x80#8] idle = some [0x00#8, 0x80#8, 0x40#8, 0xC0#8,
      0x01#8] := by decide +kernel

/-- Section 2.2. -/
theorem test_chunk :
    answer [0x03#8, 0x16#8, 0x03#8, 0x0F#8, 0x18#8, 0x55#8] idle = some [0x00#8, 0x04#8, 0x16#8, 0x0F#8, 0x18#8,
      0x55#8] := by decide +kernel

/-- Section 2.2: E_CHUNK. -/
theorem test_chunk_255 :
    answer (0x03#8 :: 0x16#8 :: 0xFF#8 :: letters 255) idle = some [0x10#8] := by decide +kernel

/-- Section 2.3: the keystream of 0xFF. -/
theorem test_whiten :
    answer [0x08#8, 0xFF#8, 0x04#8, 0x00#8, 0x00#8, 0x00#8, 0x00#8] idle = some [0x00#8, 0x47#8, 0xE9#8, 0xAB#8,
      0xD0#8] := by decide +kernel

/-- Section 2.3. -/
theorem test_whiten_back :
    answer [0x08#8, 0x65#8, 0x04#8, 0x8D#8, 0xD2#8, 0x57#8, 0xA1#8] idle = some [0x00#8, 0x00#8, 0x00#8, 0x00#8,
      0x00#8] := by decide +kernel

/-- Section 2.3. -/
theorem test_whitench :
    answer [0x09#8, 0x04#8, 0x00#8, 0x00#8, 0x00#8, 0x00#8] (base 2 none false) = some [0x00#8, 0x1F#8, 0x37#8,
      0x4A#8, 0x5F#8] := by decide +kernel

/-- Section 2.4. -/
theorem test_crc24 :
    answer [0x0C#8, 0x5B#8, 0x06#8, 0x00#8, 0x55#8, 0x55#8, 0x55#8, 0x03#8, 0x01#8, 0x02#8,
      0x03#8] idle = some [0x00#8, 0x0D#8, 0xDB#8, 0x38#8] := by decide +kernel

/-- Section 2.4. -/
theorem test_crc24_init :
    crc24 [0x00#8] 0x00065B#24 0xFFFFFF#24 = [0xBF#8, 0xD3#8, 0x93#8] := by decide +kernel

/-- Section 2.5. -/
theorem test_setmac :
    (after (fun t => t.eng.mac) [0x10#8, 0x06#8, 0x11#8, 0x22#8, 0x33#8, 0x44#8, 0x55#8,
      0x66#8] State.reset) = some mac := by decide +kernel

/-- Section 2.5. -/
theorem test_setmac_reserved :
    answer [0x10#8, 0x07#8, 0x00#8, 0x00#8, 0x00#8, 0x00#8, 0x00#8, 0x00#8,
      0x00#8] idle = some [0x03#8] := by decide +kernel

/-- Section 2.5: 18 bytes. -/
theorem test_setname :
    (after (fun t => t.eng.name) (0x11#8 :: 0x12#8 :: letters 18) idle) = some (some (letters 18)) := by decide +kernel

/-- Section 2.5: 16 bytes with power shown. -/
theorem test_setname_power :
    answer (0x11#8 :: 0x10#8 :: letters 16) (base 0 none true) = some [0x12#8] := by decide +kernel

/-- Section 2.5. -/
theorem test_clrname :
    (after (fun t => t.eng.name) [0x12#8] (base 0 (some []) false)) = some none := by decide +kernel

/-- Section 2.5: a 16-byte name. -/
theorem test_setpwr :
    (after (fun t => t.eng.showPower) [0x13#8,
      0x01#8] (base 0 (some (letters 16)) false)) = some true := by decide +kernel

/-- Section 2.5: a 17-byte name. -/
theorem test_setpwr_noroom :
    answer [0x13#8, 0x01#8] (base 0 (some (letters 17)) false) = some [0x13#8] := by decide +kernel

/-- R201; the row with the name "hi" of section 2.5, at index 2 with power shown and not configured. -/
theorem test_getcfg :
    answer [0x14#8] (base 2 (some [0x68#8, 0x69#8]) true) = some [0x00#8, 0x02#8, 0x01#8, 0x00#8, 0x01#8, 0x02#8,
      0x68#8, 0x69#8, 0x11#8, 0x22#8, 0x33#8, 0x44#8, 0x55#8, 0x66#8] := by decide +kernel

/-- Section 2.7. -/
theorem test_begin_order :
    (after (fun t => (t.eng.chanIdx, t.eng.configured,
      t.radioLog.drop 8)) [0x20#8] (withAnswers [true] [] [] (base 1 none false))) = some (0, true, [.setChannel 2,
        .setPower true, .setListen true]) := by decide +kernel

/-- Section 2.7. -/
theorem test_begin_fails :
    (after (fun t => (t.responses, t.eng.chanIdx,
      t.radioLog)) [0x20#8] (withAnswers [false] [] [] (base 1 none false))) = some ([[0x20#8]], 1,
        [.beginRadio false]) := by decide +kernel

/-- Section 2.7. -/
theorem test_hop :
    (after (fun t => (t.eng.chanIdx, t.radioLog)) [0x21#8] (base 2 none false)) = some (0,
      [.setChannel 2]) := by decide +kernel

/-- Section 2.6: -3. -/
theorem test_lenavail :
    answer [0x22#8, 0x00#8] (base 0 (some (letters 16)) true) = some [0x00#8, 0xFD#8, 0xFF#8] := by decide +kernel

/-- R228: 18 - 7 - 3 = 8 (section 2.6 prints 5 for this row, log 14). -/
theorem test_lenavail_name :
    answer [0x22#8, 0x03#8] (base 0 (some (letters 5)) false) = some [0x00#8, 0x08#8, 0x00#8] := by decide +kernel

/-- Section 2.6. -/
theorem test_assemble :
    answer [0x23#8, 0x16#8, 0x03#8, 0x0F#8, 0x18#8, 0x55#8] idle = some [0x00#8, 0x42#8, 0x11#8, 0x11#8, 0x22#8,
      0x33#8, 0x44#8, 0x55#8, 0x66#8, 0x02#8, 0x01#8, 0x05#8, 0x04#8, 0x16#8, 0x0F#8, 0x18#8, 0x55#8, 0xCD#8, 0x45#8,
        0xB4#8] := by decide +kernel

/-- Section 2.6: 84 bytes over. -/
theorem test_assemble_over :
    answer (0x23#8 :: 0xFF#8 :: 0x64#8 :: letters 100) idle = some [0x11#8, 0x54#8, 0x00#8] := by decide +kernel

/-- Section 2.6: no payload. -/
theorem test_asmseq :
    answer [0x24#8, 0x00#8] idle = some [0x00#8, 0x42#8, 0x0C#8, 0x11#8, 0x22#8, 0x33#8, 0x44#8, 0x55#8, 0x66#8,
      0x02#8, 0x01#8, 0x05#8, 0x20#8, 0xD2#8, 0xF4#8] := by decide +kernel

/-- Section 2.7: index 1. -/
theorem test_adv :
    (after (fun t => (t.responses, t.radioLog)) [0x25#8, 0x16#8, 0x03#8, 0x0F#8, 0x18#8,
      0x55#8] (withAnswers [true] [] [] (base 1 none false))) = some ([[0x00#8]], [.setListen false, .write [0x29#8,
        0x2B#8, 0xAA#8, 0x40#8, 0x56#8, 0x59#8, 0x2D#8, 0x97#8, 0x98#8, 0x25#8, 0x55#8, 0x62#8, 0xB6#8, 0x82#8,
          0xAB#8, 0xAC#8, 0x64#8, 0xE4#8, 0x69#8] true]) := by decide +kernel

/-- Section 2.7. -/
theorem test_adv_write_fails :
    (after (fun t => (t.responses, t.radioLog)) [0x25#8, 0x16#8, 0x03#8, 0x0F#8, 0x18#8,
      0x55#8] (withAnswers [false] [] [] idle)) = some ([[0x21#8]], [.setListen false, .write [0xF3#8, 0xC3#8,
        0x62#8, 0xC1#8, 0x70#8, 0xC7#8, 0xCC#8, 0x6B#8, 0xEE#8, 0x0C#8, 0x28#8, 0x32#8, 0x01#8, 0x1E#8, 0x07#8,
          0x6D#8, 0xD1#8, 0x35#8, 0xF8#8] false]) := by decide +kernel

/-- Section 2.7. -/
theorem test_advseq :
    (after (fun t => (t.responses, t.radioLog)) [0x26#8, 0x01#8, 0x05#8, 0x04#8, 0x16#8, 0x0F#8, 0x18#8,
      0x55#8] (withAnswers [true] [] [] idle)) = some ([[0x00#8]], [.setListen false, .write [0xF3#8, 0xC3#8, 0x62#8,
        0xC1#8, 0x70#8, 0xC7#8, 0xCC#8, 0x6B#8, 0xEE#8, 0x0C#8, 0x28#8, 0x32#8, 0x01#8, 0x1E#8, 0x07#8, 0x6D#8,
          0xD1#8, 0x35#8, 0xF8#8] true]) := by decide +kernel

/-- Section 2.8. -/
theorem test_poll_read :
    (after (fun t => (t.responses, t.eng.rxq.map encRecord)) [0x30#8] (withAnswers [true] [0x13#8] [[0xF3#8, 0xC3#8,
      0x62#8, 0xC1#8, 0x70#8, 0xC7#8, 0xCC#8, 0x6B#8, 0xEE#8, 0x0C#8, 0x28#8, 0x32#8, 0x01#8, 0x1E#8, 0x07#8, 0x6D#8,
        0xD1#8, 0x35#8, 0xF8#8]] idle)) = some ([[0x00#8, 0x01#8]], [[0x11#8, 0x22#8, 0x33#8, 0x44#8, 0x55#8, 0x66#8,
          0x00#8, 0x00#8, 0x01#8, 0x01#8, 0x0F#8, 0x18#8, 0x01#8, 0x01#8, 0x55#8]]) := by decide +kernel

/-- Section 2.8. -/
theorem test_read_empty :
    answer [0x31#8] idle = some [0x00#8, 0x00#8] := by decide +kernel

/-- Section 2.8, d20: power, name and battery. -/
theorem test_decode_d20 :
    answer [0x32#8, 0x18#8, 0xF3#8, 0x23#8, 0x62#8, 0xC1#8, 0x70#8, 0xC7#8, 0xCC#8, 0x6B#8, 0xEE#8, 0xDC#8, 0x28#8,
      0xD2#8, 0x79#8, 0xF8#8, 0x89#8, 0x67#8, 0x0A#8, 0x67#8, 0xCD#8, 0x2D#8, 0x79#8, 0x54#8, 0x4F#8,
        0x5F#8] idle = some [0x00#8, 0x01#8, 0x11#8, 0x22#8, 0x33#8, 0x44#8, 0x55#8, 0x66#8, 0x01#8, 0x02#8, 0x68#8,
          0x69#8, 0x01#8, 0x05#8, 0x01#8, 0x01#8, 0x0F#8, 0x18#8, 0x01#8, 0x02#8, 0x64#8, 0x00#8] := by decide +kernel

/-- Section 2.8, d7: an overrunning chunk. -/
theorem test_decode_d7 :
    answer [0x32#8, 0x12#8, 0xF3#8, 0x43#8, 0x62#8, 0xC1#8, 0x70#8, 0xC7#8, 0xCC#8, 0x6B#8, 0xEE#8, 0x0C#8, 0x28#8,
      0xB2#8, 0x96#8, 0x6E#8, 0x5F#8, 0x26#8, 0xB1#8, 0x62#8] idle = some [0x00#8, 0x01#8, 0x11#8, 0x22#8, 0x33#8,
        0x44#8, 0x55#8, 0x66#8, 0x00#8, 0x00#8, 0x01#8, 0x00#8, 0x04#8, 0x05#8, 0xFF#8, 0x01#8,
          0x02#8] := by decide +kernel

/-! ### Witnesses: states and operands that meet the hypotheses of the obligations -/

theorem witness_EncodedCommandDecodesBack :
    Instr.wellFormed (.advseq [letters 255, []]) = true := by decide +kernel

theorem witness_DecodedFrameIsTheCommandsFrame :
    decodeFrame [0x22#8, 0xFF#8] = .ok (.lenavail 0xFF#8) := rfl

theorem witness_OpcodeByteAloneSelectsTheCommand :
    (decodeFrame [0x01#8, 0x00#8] = .ok (.revb 0x00#8) ∧ decodeFrame [0x01#8, 0xFF#8] = .ok (.revb 0xFF#8))
      ∧ decodeFrame [0x13#8, 0x00#8] = .ok (.setpwr 0x00#8) := ⟨⟨rfl, rfl⟩, rfl⟩

/-- The ends of the ranges of R97, and the opcodes beside them. -/
theorem witness_IllegalOpcodesAnswerIllegal :
    (withFrame [0x04#8, 0x01#8] idle).cmdIn = [[0x04#8, 0x01#8]]
      ∧ (∀ op ∈ [0x00#8, 0x04#8, 0x07#8, 0x0A#8, 0x0B#8, 0x0D#8, 0x0F#8, 0x15#8, 0x1F#8, 0x27#8, 0x2F#8, 0x33#8,
        0xFF#8], IllegalOpcode op)
      ∧ ∀ op ∈ [0x01#8, 0x03#8, 0x08#8, 0x09#8, 0x0C#8, 0x10#8, 0x14#8, 0x20#8, 0x26#8, 0x30#8, 0x32#8],
        ¬ IllegalOpcode op := ⟨rfl, by unfold IllegalOpcode; decide +kernel, by unfold IllegalOpcode; decide +kernel⟩

theorem witness_MisshapenFramesAnswerMalformed :
    (withFrame [0x02#8, 0x03#8, 0x01#8] idle).cmdIn = [[0x02#8, 0x03#8, 0x01#8]]
      ∧ (0x02#8 ∈ listedOpcodes ∧ ¬ WellShaped [0x02#8, 0x03#8, 0x01#8]) ∧ WellShaped [0x02#8, 0x01#8, 0x01#8] := by
  refine ⟨rfl, ⟨by decide, fun h => ?_⟩, wellShaped_of_decode (i := .revbuf [0x01#8]) rfl⟩
  obtain ⟨i, hi⟩ := decode_of_wellShaped h
  cases hi

theorem witness_StreamShowsWhereAFrameEnds :
    Instr.wellFormed (.asmseq [letters 255, []]) = true := by decide +kernel

theorem witness_StepRunsTheDecodedCommand :
    (withFrame [0x21#8] idle).cmdIn = [0x21#8] :: [] ∧ decodeFrame [0x21#8] = .ok .hop
      ∧ Instr.wellFormed .hop = true ∧ [0x21#8] = encode .hop := ⟨rfl, rfl, rfl, rfl⟩

theorem witness_EveryFrameIsAnsweredOnce :
    idle.cmdIn = [] ∧ (withFrame [] idle).cmdIn = [] :: [] := ⟨rfl, rfl⟩

theorem witness_ErrorsArePrecise :
    ∃ t, step (withFrame [0x13#8, 0x02#8] idle) = .next t ∧ t.responses = [] ++ [0x03#8 :: []]
      ∧ (0x03#8 : Byte) ≠ 0x00#8 ∧ (0x03#8 : Byte) ≠ 0x20#8 ∧ (0x03#8 : Byte) ≠ 0x21#8 := ⟨_, rfl, rfl, by decide,
        by decide, by decide⟩

theorem witness_AssemblyChangesNoEngineState :
    payloadSize (.advseq []) = some 0 ∧ ∃ t, exec (.setmac [0x00#8, 0x00#8, 0x00#8, 0x00#8, 0x00#8,
      0x00#8]) idle = .next t ∧ t.eng.mac ≠ idle.eng.mac := ⟨rfl, _, rfl, by decide⟩

theorem witness_OnlyHopAndBeginMoveTheChannel :
    (∃ t, exec .hop idle = .next t ∧ t.eng.chanIdx ≠ idle.eng.chanIdx)
      ∧ ∃ t, exec .beginRadio (withAnswers [true] [] [] (base 2 none false)) = .next t ∧ t.eng.chanIdx ≠ 2 := ⟨⟨_,
        rfl, by decide⟩, _, rfl, by decide⟩

theorem witness_FieldsHaveTheirWriters :
    (∃ t, exec (.setname []) idle = .next t ∧ t.eng.name ≠ idle.eng.name)
      ∧ (∃ t, exec .clrname (base 0 (some []) false) = .next t ∧ t.eng.name ≠ some [])
      ∧ (∃ t, exec (.setpwr 0x01#8) idle = .next t ∧ t.eng.showPower ≠ idle.eng.showPower)
      ∧ (∃ t, exec .beginRadio (withAnswers [true] [] [] idle) = .next t ∧ t.eng.configured ≠ idle.eng.configured)
      ∧ ∃ t, exec .poll (withAnswers [true] [0x13#8] [[0xF3#8, 0xC3#8, 0x62#8, 0xC1#8, 0x70#8, 0xC7#8, 0xCC#8,
        0x6B#8, 0xEE#8, 0x0C#8, 0x28#8, 0x32#8, 0x01#8, 0x1E#8, 0x07#8, 0x6D#8, 0xD1#8, 0x35#8,
          0xF8#8]] idle) = .next t
        ∧ t.eng.rxq ≠ idle.eng.rxq
        ∧ ∃ u, exec .read t = .next u ∧ u.eng.rxq ≠ t.eng.rxq := ⟨⟨_, rfl, by decide⟩, ⟨_, rfl, by decide⟩, ⟨_, rfl,
          by decide⟩, ⟨_, rfl, by decide⟩, _, rfl, by decide +kernel, _, rfl,
    by decide +kernel⟩

theorem witness_ConfiguredIsOnlyReported :
    Instr.hop ≠ .getcfg := by decide +kernel

theorem witness_ReceptionIgnoresIdentity :
    Instr.decode [] = .poll ∨ Instr.decode [] = .read ∨ ∃ d, Instr.decode [] = .decode d := .inr (.inr ⟨_, rfl⟩)

/-- HOP, BEGIN, POLL, and ADV with power shown: between them they issue every one of the sixteen transactions. -/
theorem witness_RadioTransactionsHaveTheirIssuers :
    (∃ t, exec .hop idle = .next t ∧ t.radioLog = idle.radioLog ++ [.setChannel 26])
      ∧ (∃ t, exec .beginRadio (withAnswers [true] [] [] idle) = .next t
        ∧ t.radioLog = (withAnswers [true] [] [] idle).radioLog
          ++ [.beginRadio true, .setCrcLength 0, .setAutoAck false, .setDynamicPayloads false,
            .setRetries Config.retryDelay 0, .setAddressWidth 4, .openTxPipe pipeAddr,
            .openRxPipe Config.rxPipe pipeAddr, .setChannel 2, .setPower true, .setListen true])
      ∧ (∃ t, exec .poll (withAnswers [true] [0x00#8] [[]] idle) = .next t
        ∧ t.radioLog = (withAnswers [true] [0x00#8] [[]] idle).radioLog
          ++ [.available true, .getPayloadSize 0x00#8, .read 0x00#8 []])
      ∧ ∃ t f, exec (.adv 0x16#8 []) (withAnswers [true] [0x03#8] [] (base 0 none true)) = .next t
        ∧ t.radioLog = (withAnswers [true] [0x03#8] [] (base 0 none true)).radioLog
          ++ [.getPaLevel 0x03#8, .setListen false, .write f true] :=
  ⟨⟨_, rfl, rfl⟩, ⟨_, rfl, rfl⟩, ⟨_, rfl, rfl⟩, _, _, rfl, rfl⟩

theorem witness_RevbufReversesEachByteInPlace :
    0 < ([0x01#8] : Bytes).length := by decide +kernel

theorem witness_ChunkFramesOrRefuses :
    (letters 254).length ≤ 254 ∧ 255 ≤ (letters 255).length := by decide +kernel

theorem witness_WhitenXorsTheRegistersLowBits :
    254 < (letters 255).length ∧ 7 < 8 := by decide +kernel

theorem witness_KeystreamIsIndependentOfData :
    254 < (letters 255).length ∧ (⟨0x7F#8, 0x00#8, 0x01#8⟩ : Lfsr).w.toNat < 0x80
      ∧ (⟨0x80#8, 0x00#8, 0x01#8⟩ : Lfsr).w.getLsbD 7 = true := by decide +kernel

theorem witness_SetmacStoresOrDraws :
    (letters 6).length = 6 ∧ (letters 5).length < 6 ∧ 6 < (letters 7).length := by decide +kernel

theorem witness_SetnameStoresWithinTheLimit :
    (idle.eng.showPower = false ∧ (letters 18).length ≤ 18 ∧ 18 < (letters 19).length)
      ∧ (base 0 none true).eng.showPower = true ∧ (letters 15).length ≤ 15 ∧ 15 < (letters 16).length := by decide +kernel

theorem witness_ClrnameRegainsTheBudget :
    (base 0 (some []) false).eng.name = some [] := rfl

theorem witness_SetpwrChecksTheName :
    (∀ n, (base 0 (some (letters 16)) false).eng.name = some n → n.length ≤ 16)
      ∧ (∃ n, (base 0 (some (letters 17)) false).eng.name = some n ∧ 16 < n.length) ∧ 1 < (0x02#8 : Byte).toNat := by
  refine ⟨fun n h => ?_, ⟨_, rfl, by decide⟩, by decide⟩
  cases h; decide

theorem witness_GetcfgReportsTheIdentity :
    idle.eng.name = none ∧ (base 0 (some []) false).eng.name = some [] := ⟨rfl, rfl⟩

theorem witness_NameAndPowerOrderMatters :
    (idle.eng.showPower = false ∧ (letters 16).length = 16 ∧ payloadSize (.asmseq []) = some 0
      ∧ Instr.wellFormed (.asmseq []) = true) ∧ idle.eng.name = none := ⟨⟨rfl, rfl, rfl, rfl⟩, rfl⟩

theorem witness_BeginConfiguresTheRadio :
    nextBool (withAnswers [true] [] [] idle) = true ∧ nextBool (withAnswers [false] [] [] idle) = false := ⟨rfl, rfl⟩

theorem witness_HopAdvancesCyclically :
    (base 0 none false).eng.chanIdx = 0 ∧ (base 1 none false).eng.chanIdx = 1 ∧ (base 2 none false).eng.chanIdx = 2 := ⟨rfl, rfl, rfl⟩

theorem witness_LenavailAnswersTheBudget :
    NameFits (base 0 (some (letters 18)) false).eng ∧ NameFits (base 0 (some (letters 16)) true).eng := by
  refine ⟨fun n h => ?_, fun n h => ?_⟩ <;> cases h <;> decide

theorem witness_AssembleAnswersThePdu :
    payloadSize (.assemble 0xFF#8 (letters 16)) = some 18 ∧ ¬ Transmits (.assemble 0xFF#8 (letters 16))
      ∧ 0 ≤ budgetLeft idle.eng 18 := ⟨rfl, id, by decide⟩

theorem witness_AdvWritesTheOnAirFrame :
    payloadSize (.adv 0xFF#8 (letters 16)) = some 18 ∧ Transmits (.adv 0xFF#8 (letters 16))
      ∧ 0 ≤ budgetLeft idle.eng 18 := ⟨rfl, trivial, by decide⟩

theorem witness_PduLengthByteCountsWhatFollows :
    0 ≤ budgetLeft idle.eng (letters 18).length ∧ 0 ≤ budgetLeft idle.eng ([] : Bytes).length := by decide +kernel

theorem witness_OverBudgetReportsTheAmount :
    payloadSize (.adv 0xFF#8 (letters 17)) = some 19 ∧ budgetLeft idle.eng 19 < 0 ∧ NameFits idle.eng
      ∧ Instr.wellFormed (.adv 0xFF#8 (letters 17)) = true := by
  refine ⟨rfl, by decide, ?_, by decide⟩
  intro n h; simp [idle, base] at h

theorem witness_SingleBufferIsTheSequenceOfItsChunk :
    (letters 255).length ≤ 255 := by decide +kernel

/-- The d17 frame, the largest accepted length byte (95_test_vectors.md, section 2.8). -/
def frameD17 : Bytes :=
    [0xF3#8, 0xF3#8, 0x62#8, 0xC1#8, 0x70#8, 0xC7#8, 0xCC#8, 0x6B#8, 0xEE#8, 0x0C#8, 0x28#8, 0x1A#8, 0x96#8, 0xEE#8,
      0x9F#8, 0x87#8, 0xA2#8, 0xB7#8, 0x75#8, 0x6B#8, 0x99#8, 0xDA#8, 0x5C#8, 0x4B#8, 0x8D#8, 0x29#8, 0xA0#8, 0x54#8,
        0x3F#8, 0x2D#8, 0xD3#8]

/-- The d16 frame, the smallest accepted PDU (95_test_vectors.md, section 2.8). -/
def frameD16 : Bytes := [0xF3#8, 0xDB#8, 0x62#8, 0xC1#8, 0x70#8, 0xC7#8, 0xCC#8, 0x6B#8, 0x38#8, 0xF8#8, 0xB4#8]

/-- The d18 frame, with the length byte 30 (95_test_vectors.md, section 2.8). -/
def frameD18 : Bytes :=
    [0xF3#8, 0x33#8, 0x62#8, 0xC1#8, 0x70#8, 0xC7#8, 0xCC#8, 0x6B#8, 0xEE#8, 0x0C#8, 0x28#8, 0x9A#8, 0x96#8, 0xEE#8,
      0x9F#8, 0x87#8, 0xA2#8, 0xB7#8, 0x75#8, 0x6B#8, 0x99#8, 0xDA#8, 0x5C#8, 0x4B#8, 0x8D#8, 0x29#8, 0xA0#8, 0x54#8,
        0x23#8, 0xA2#8, 0x22#8, 0xBE#8]

/-- The d19 frame, with the length byte 8 (95_test_vectors.md, section 2.8). -/
def frameD19 : Bytes := [0xF3#8, 0x5B#8, 0x62#8, 0xC1#8, 0x70#8, 0xC7#8, 0xCC#8, 0x6B#8, 0x81#8, 0x83#8, 0x1D#8]

theorem accepted_d17 : Accepted (rxFront 0 frameD17) (rxFront 0 frameD17) 28 :=
  rxValidate_eq_some.mp (by decide +kernel)

theorem dropped_d18 : ¬ ∃ g e, Accepted (rxFront 0 frameD18) g e := rxValidate_eq_none.mp (by decide +kernel)

/-- d17, d16, d18 and d19: the length bytes 29, 9, 30 and 8. -/
theorem witness_DecodeAcceptsWhatTheChecksPass :
    (∃ g e, Accepted (rxFront idle.eng.chanIdx frameD17) g e) ∧ (∃ g e,
      Accepted (rxFront idle.eng.chanIdx frameD16) g e)
      ∧ (¬ ∃ g e, Accepted (rxFront idle.eng.chanIdx frameD18) g e)
      ∧ ¬ ∃ g e, Accepted (rxFront idle.eng.chanIdx frameD19) g e := by
  refine ⟨⟨_, _, accepted_d17⟩, ⟨rxFront 0 frameD16, 8, ?_⟩, dropped_d18, ?_⟩
  · exact rxValidate_eq_some.mp (by decide +kernel)
  · exact rxValidate_eq_none.mp (by decide +kernel)

/-- A chunk of a type byte only, then a tail that overruns by one byte. -/
theorem witness_ParseWalksTheChunks :
    8 ≤ 12 ∧ 12 ≤ (letters 8 ++ [0x01#8, 0x16#8, 0x02#8, 0x41#8] : Bytes).length
      ∧ (∀ c ∈ [((0x16#8, []) : AdChunk)], AdChunkFits c) ∧ UnparsedTail [0x02#8, 0x41#8]
      ∧ ((letters 8 ++ [0x01#8, 0x16#8, 0x02#8, 0x41#8]).take 12).drop 8
        = [((0x16#8, []) : AdChunk)].flatMap adChunkBytes ++ [0x02#8, 0x41#8] := by
  refine ⟨by decide, by decide, ?_, .inr (by decide), rfl⟩
  intro c hc
  obtain rfl : c = (0x16#8, []) := by simpa using hc
  exact Nat.zero_le _

/-- Whatever the two open UUIDs are, one of three numbers is none of the recognised UUIDs. -/
theorem unrecognised_uuid : ∃ u0 u1 : Byte, svcKind (u1 ++ u0) = none := by
  have h : ∀ x y : U16, ∃ u0 u1 : Byte, (u1 ++ u0 : U16) ≠ batteryUuid ∧ (u1 ++ u0 : U16) ≠ x ∧ (u1 ++ u0 : U16) ≠ y := by
    intro x y
    by_contra hn
    push Not at hn
    have h1 := hn 0x01#8 0x00#8 (by decide)
    have h2 := hn 0x02#8 0x00#8 (by decide)
    have h3 := hn 0x03#8 0x00#8 (by decide)
    by_cases a1 : (0x00#8 ++ 0x01#8 : U16) = x
    · have b2 := h2 (by rw [← a1]; decide)
      have b3 := h3 (by rw [← a1]; decide)
      exact absurd (b2.trans b3.symm) (by decide)
    · have b1 := h1 a1
      by_cases a2 : (0x00#8 ++ 0x02#8 : U16) = x
      · have b3 := h3 (by rw [← a2]; decide)
        exact absurd (b1.trans b3.symm) (by decide)
      · exact absurd (b1.trans (h2 a2).symm) (by decide)
  obtain ⟨u0, u1, h1, h2, h3⟩ := h uuidTemperature uuidUrl
  exact ⟨u0, u1, by simp [svcKind, h1, h2, h3]⟩

theorem witness_ChunkTypesAreDispatched :
    ([0xEE#8] : Bytes) = [0xEE#8] ∧ ([0x01#8, 0x02#8] : Bytes).length ≠ 1 ∧ validUtf8 [] = true
      ∧ validUtf8 [0xC0#8, 0xAF#8] = false ∧ svcKind (0x18#8 ++ 0x0F#8) = some .battery ∧ (∃ u0 u1 : Byte,
        svcKind (u1 ++ u0) = none)
      ∧ ([0x0F#8] : Bytes).length < 2
      ∧ (0xFF#8 : Byte) ≠ 0x01#8 ∧ (0xFF#8 : Byte) ≠ 0x0A#8 ∧ (0xFF#8 : Byte) ≠ 0x08#8 ∧ (0xFF#8 : Byte) ≠ 0x16#8 := by
  refine ⟨rfl, by decide, rfl, by decide +kernel, rfl, unrecognised_uuid, by decide, by decide, by decide, by decide,
    by decide⟩

theorem witness_ServiceKindsFollowTheUuid :
    svcKind (0x18#8 ++ 0x0F#8) = some .battery ∧ batteryUuid ≠ uuidTemperature ∧ batteryUuid ≠ uuidUrl
      ∧ uuidTemperature ≠ uuidUrl :=
  ⟨rfl, uuidTemperature_ne_battery.symm, uuidUrl_ne_battery.symm, uuidUrl_ne_uuidTemperature.symm⟩

/-- U+10FFFF, the last row of the table of R275. -/
theorem witness_Utf8IsTheTablesConcatenations :
    validUtf8 [0xF4#8, 0x8F#8, 0xBF#8, 0xBF#8] = true := by decide +kernel

theorem witness_PollReceivesAtMostOneFrame :
    nextBool (withAnswers [false] [] [] idle) = false
      ∧ (nextBool (withAnswers [true] [0x1F#8] [frameD17] idle) = true
        ∧ nextBytes (takeByte (takeBool (withAnswers [true] [0x1F#8] [frameD17] idle))) = frameD17
        ∧ ∃ g e, Accepted (rxFront 0 frameD17) g e)
      ∧ ¬ ∃ g e, Accepted (rxFront 0 frameD18) g e := ⟨rfl, ⟨rfl, rfl, _, _, accepted_d17⟩, dropped_d18⟩

/-- A record that fits, with a text name, a power and one item of each form. -/
def sampleRecord : Record :=
  { mac := mac, name := .text [0x43#8], power := some 0xEE#8, data := [.raw [0xFF#8], .svc 0x180F#16 .battery [0x55#8]] }

theorem witness_ReadPopsTheOldestRecord :
    idle.eng.rxq = [] ∧ (setRxq [sampleRecord] idle).eng.rxq = sampleRecord :: [] := ⟨rfl, rfl⟩

theorem sampleRecord_fits : RecordFits sampleRecord := by
  refine ⟨⟨by decide, rfl⟩, by decide, fun x hx => ?_⟩
  rcases List.mem_cons.mp hx with rfl | hx
  · simp [ItemFits]
  · obtain rfl := List.mem_singleton.mp hx
    exact ⟨by decide, rfl⟩

theorem longNameRecord_fits : RecordFits { sampleRecord with name := .raw (0xC0#8 :: letters 17), power := none } :=
  ⟨⟨by decide, rfl⟩, sampleRecord_fits.2⟩

/-- The record of the d17 frame, the largest accepted PDU (95_test_vectors.md, section 2.8): its chunk of 17 bytes is one
raw item. -/
def recordD17 : Record :=
  { mac := mac, name := .absent, power := none,
    data := [.raw (0x10#8 :: 0xFF#8 :: (List.range 15).map (BitVec.ofNat 8))] }

theorem validated_d17 : ValidatedRecord recordD17 := ⟨_, _, _, accepted_d17, by decide +kernel⟩

theorem witness_RecordEncodingIsInjective :
    (∃ r, ValidatedRecord r) ∧ RecordFits sampleRecord ∧ encRecord sampleRecord = encRecord sampleRecord :=
  ⟨⟨_, validated_d17⟩, sampleRecord_fits, rfl⟩

theorem witness_RecordEncodingLayout :
    RecordFits sampleRecord ∧ RecordFits { sampleRecord with name := .raw (0xC0#8 :: letters 17), power := none }
      ∧ RecordFits { sampleRecord with name := .absent } := ⟨sampleRecord_fits, longNameRecord_fits, trivial,
        sampleRecord_fits.2⟩

theorem witness_FullBudgetPduIsNeverAccepted :
    (rxFront idle.eng.chanIdx frameD18)[1]? = some 0x1E#8 ∧ 30 ≤ (0x1E#8 : Byte).toNat
      ∧ nextBool (withAnswers [true] [0x20#8] [frameD18] idle) = true
      ∧ nextBytes (takeByte (takeBool (withAnswers [true] [0x20#8] [frameD18] idle))) = frameD18
      ∧ budgetLeft idle.eng (letters 18).length = 0 := ⟨by decide +kernel, by decide, rfl, rfl, by decide⟩

/-- Two chunks of 17 bytes in all: battery service data, and a chunk of type 0xFF. -/
def roundTripChunks : List AdChunk := [(0x16#8, [0x0F#8, 0x18#8, 0x55#8]), (0xFF#8, letters 10)]

theorem witness_PduRoundTrip :
    idle.eng.name = none ∧ idle.eng.showPower = false
      ∧ (∀ c ∈ roundTripChunks, AdChunkFits c ∧ c.1 ≠ 0x01#8 ∧ c.1 ≠ 0x08#8 ∧ c.1 ≠ 0x0A#8)
      ∧ [roundTripChunks.flatMap adChunkBytes].flatten = roundTripChunks.flatMap adChunkBytes
      ∧ [roundTripChunks.flatMap adChunkBytes].flatten.length ≤ 17 ∧ [letters 18].flatten.length = 18 := by
  refine ⟨rfl, rfl, ?_, rfl, by decide, rfl⟩
  unfold AdChunkFits; decide

/-- ADV of 15 bytes leaves 1 byte of the budget, the least that is received: it writes the d17 frame
(95_test_vectors.md, sections 2.6 and 2.8). -/
theorem witness_AdvertisedFrameIsReceived :
    payloadSize (.adv 0xFF#8 ((List.range 15).map (BitVec.ofNat 8))) = some 17
      ∧ Transmits (.adv 0xFF#8 ((List.range 15).map (BitVec.ofNat 8))) ∧ budgetLeft idle.eng 17 = 1
      ∧ (∃ t, exec (.adv 0xFF#8 ((List.range 15).map (BitVec.ofNat 8))) (withAnswers [true] [] [] idle) = .next t
        ∧ t.radioLog.getLast? = some (.write frameD17 true))
      ∧ nextBool (withAnswers [true] [0x1F#8] [frameD17] idle) = true
      ∧ nextBytes (takeByte (takeBool (withAnswers [true] [0x1F#8] [frameD17] idle))) = frameD17 :=
  ⟨rfl, trivial, rfl, ⟨_, rfl, by decide +kernel⟩, rfl, rfl⟩

/-- A queued record and a name of the greatest length. -/
theorem witness_EveryStepKeepsTheInvariant :
    Machine.Invariant (setRxq [recordD17] (withFrame [0x31#8] (base 0 (some (letters 18)) false)))
      ∧ ∃ t, step (setRxq [recordD17] (withFrame [0x31#8] (base 0 (some (letters 18)) false))) = .next t := by
  refine ⟨⟨?_, ?_, rfl⟩, _, rfl⟩
  · intro n h
    obtain rfl : letters 18 = n := Option.some.inj h
    decide
  · intro r h
    obtain rfl := List.mem_singleton.mp h
    exact validated_d17

end Sys2Proof.Tests
end

section
/-! The obligation on completion of commands (20_memory.md, R66, R69, R100): which commands may issue radio transactions,
and O10 itself from `exec_answers`. -/

namespace Sys2Proof.Machine

/-- Of the commands without a payload, BEGIN, HOP and POLL alone may issue transactions (R220, R222, R280). -/
theorem Effect.issuer_of_events {i : Instr} {s : State} {e : Engine} {es : List RadioEvent} {c : Byte} {b : Bytes}
    (h : Effect i s e es c b) (hes : es ≠ []) : i = .beginRadio ∨ i = .hop ∨ i = .poll := by
  cases i with
  | beginRadio => exact .inl rfl
  | hop => exact .inr (.inl rfl)
  | poll => exact .inr (.inr rfl)
  | assemble | asmseq | adv | advseq => exact h.elim
  | revb | revbuf | chunk | whiten | whitench | crc24 | getcfg | lenavail | read | decode =>
    obtain ⟨-, hnil, -⟩ := h
    exact absurd hnil hes
  | setmac | setname | clrname | setpwr =>
    obtain ⟨hnil, -⟩ := h
    exact absurd hnil hes

/-- The commands that carry a payload are the four assembly commands (R230). -/
theorem mnemonic_mem_of_payloadSize {i : Instr} {h : Nat} (hp : payloadSize i = some h) :
    i.mnemonic ∈ ["ASSEMBLE", "ASMSEQ", "ADV", "ADVSEQ"] := by
  cases i with
  | assemble | asmseq | adv | advseq => simp [Instr.mnemonic]
  | _ => simp [payloadSize] at hp

/-- Settles O10: `exec_answers` gives the one response and the frame of every command, and its two alternatives, a command
without a payload and one with, name the commands that may issue transactions. -/
theorem everyCommandCompletes : Obligations.EveryCommandCompletes := by
  intro i s
  obtain ⟨t, e, es, c, b, hexec, hafter, heffect⟩ := exec_answers i s
  refine ⟨t, c :: b, es, hexec, List.cons_ne_nil c b, hafter.responses, hafter.hpc, hafter.cmdIn, hafter.radioLog,
    fun hes => ?_⟩
  rcases heffect with heffect | ⟨h, hp, -⟩
  · rcases heffect.issuer_of_events hes with rfl | rfl | rfl <;> simp [Instr.mnemonic]
  · have hm := mnemonic_mem_of_payloadSize hp
    simp only [List.mem_cons] at hm ⊢
    tauto

end Sys2Proof.Machine
end

section
/-! The obligation on the opcode byte (30_encoding.md, R95, R96): the command a frame decodes to carries the frame's
first byte as its opcode, and opcodes tell mnemonics apart, which is O4. -/

namespace Sys2Proof

/-- Whatever its operands, a command the format makes has the opcode `op` (R91). -/
def Format.MakesOpcode (op : Byte) : Format → Prop
  | .f0 i => i.opcode = op
  | .f1 k => ∀ a, (k a).opcode = op
  | .fb k => ∀ d, (k d).opcode = op
  | .fab k => ∀ a d, (k a d).opcode = op
  | .fc k => ∀ p q d, (k p q d).opcode = op
  | .fs k => ∀ seq, (k seq).opcode = op

/-- Each of the 21 rows of the opcode map makes commands of its own opcode only (R95). -/
theorem makesOpcode_of_opcodeRow {op : Byte} {fmt : Format} (h : opcodeRow op = some fmt) : fmt.MakesOpcode op := by
  rcases opcodeRow_cases h with h|h|h|h|h|h|h|h|h|h|h|h|h|h|h|h|h|h|h|h|h <;> obtain ⟨rfl, rfl⟩ := h <;>
    simp [Format.MakesOpcode, Instr.opcode]

theorem Format.MakesOpcode.opcode_eq {op : Byte} {fmt : Format} {r : Bytes} {i : Instr} (hm : fmt.MakesOpcode op)
    (h : fmt.operands r = some i) : i.opcode = op := by
  rcases operands_some h with ⟨j, rfl, -, rfl⟩ | ⟨k, a, rfl, -, rfl⟩ | ⟨k, d, rfl, -, -, rfl⟩ |
    ⟨k, a, d, rfl, -, -, rfl⟩ | ⟨k, p, q, d, rfl, -, -, rfl⟩ | ⟨k, seq, rfl, -, -, rfl⟩
  · exact hm
  · exact hm a
  · exact hm d
  · exact hm a d
  · exact hm p q d
  · exact hm seq

/-- The first byte of a frame is the opcode of the command it decodes to (R96). -/
theorem opcode_of_decodeFrame {op : Byte} {r : Bytes} {i : Instr} (h : decodeFrame (op :: r) = .ok i) :
    i.opcode = op := by
  obtain ⟨fmt, hrow, hoperands⟩ := decodeFrame_cons.mp h
  exact (makesOpcode_of_opcodeRow hrow).opcode_eq hoperands

/-- Settles O4: each frame's first byte is its command's opcode, and commands share a mnemonic exactly when they share
an opcode. -/
theorem opcodeByteAloneSelectsTheCommand : Obligations.OpcodeByteAloneSelectsTheCommand := by
  intro op op' r r' i j hi hj
  rw [mnemonic_eq_iff_opcode_eq, opcode_of_decodeFrame hi, opcode_of_decodeFrame hj]

end Sys2Proof
end

section
/-! The obligations on the bit permuter (40_bit_primitives.md, R130–R133): REVB, which is O19, and REVBUF, which is O20.
Each is what the pure function does to bits or bytes, from Laws/Bits.lean, and one OK response with nothing else. -/

namespace Sys2Proof.Machine

/-- An OK response is the status byte 0x00 and the result, and changes nothing else (R100, R320). -/
theorem respondOk_eq_answered (b : Bytes) (s : State) : respondOk b s = answered s (0x00#8 :: b) := by
  rw [respondOk_eq, answered_eq_respond, statusOk]

theorem exec_revb (a : Byte) (s : State) : exec (.revb a) s = .next (respondOk [rev8 a] s) := rfl

theorem exec_revbuf (d : Bytes) (s : State) : exec (.revbuf d) s = .next (respondOk (revbuf d) s) := rfl

/-- `revbuf` acts byte by byte, also past the end, where both sides have no byte (R132). -/
theorem revbuf_getElem? (d : Bytes) (i : Nat) : (revbuf d)[i]? = (d[i]?).map rev8 := List.getElem?_map

/-- Settles O19: `rev8_bit` gives the bits, and REVB is one OK response. -/
theorem revbAnswersTheReversedByte : Obligations.RevbAnswersTheReversedByte := by
  intro a s
  refine ⟨fun i hi => rev8_bit a hi, ?_⟩
  rw [exec_revb, respondOk_eq_answered]

/-- Settles O20: `revbuf` keeps the length and maps each index, and REVBUF is one OK response. -/
theorem revbufReversesEachByteInPlace : Obligations.RevbufReversesEachByteInPlace := by
  intro d s
  refine ⟨revbuf_length d, fun i _ => revbuf_getElem? d i, ?_⟩
  rw [exec_revbuf, respondOk_eq_answered]

end Sys2Proof.Machine
end

section
/-! The obligations on whitening (41_whitening.md, R150–R154): WHITEN, which is O23, and WHITENCH, which is O25. Each is
one OK response with the whitened buffer; `whiten_bit` gives the buffer's bits, and the lemma below the coefficient. -/

namespace Sys2Proof.Machine

theorem exec_whiten (a : Byte) (d : Bytes) (s : State) :
    exec (.whiten a d) s = .next (respondOk (whiten d a) s) := rfl

theorem exec_whitench (d : Bytes) (s : State) :
    exec (.whitench d) s = .next (respondOk (whiten d (coef s.eng.chanIdx)) s) := rfl

/-- The channel's coefficient as a number: the formula of R153 and its value, index by index. -/
theorem coef_toNat (i : Fin 3) : (coef i).toNat = (i.val + 37) ||| 0x40 ∧ (coef i).toNat = 0x65 + i.val := by
  decide +revert

/-- Settles O23: the answered buffer is `whiten d c`, and `whiten_bit` gives each of its bits. -/
theorem whitenXorsTheRegistersLowBits : Obligations.WhitenXorsTheRegistersLowBits := by
  intro c d s
  refine ⟨whiten d c, whiten_length d c, fun i k hi hk => ?_, ?_⟩
  · have hout : i < (whiten d c).length := (whiten_length d c).symm ▸ hi
    rw [List.getD_eq_getElem _ _ hout, List.getD_eq_getElem _ _ hi]
    exact whiten_bit d c i k hout hk
  · rw [exec_whiten, respondOk_eq_answered]

/-- Settles O25: the coefficient is `coef` of the channel index, with the values of `coef_toNat`. -/
theorem whitenchUsesTheChannelsCoefficient : Obligations.WhitenchUsesTheChannelsCoefficient := by
  intro d s
  obtain ⟨hformula, hvalue⟩ := coef_toNat s.eng.chanIdx
  refine ⟨coef s.eng.chanIdx, hformula, hvalue, ?_⟩
  rw [exec_whitench, respondOk_eq_answered]

end Sys2Proof.Machine
end

section
/-! The obligation on the CRC polynomial accumulator (42_crc24.md, R170–R172): CRC24, which is O26. The response carries
the 24-bit register's checksum, and `crc24_eq_wideCrc24` says it is that of the unbounded register masked after each byte. -/

namespace Sys2Proof.Machine

theorem exec_crc24 (poly init : U24) (d : Bytes) (s : State) :
    exec (.crc24 poly init d) s = .next (respondOk (crc24 d poly init) s) := rfl

/-- Settles O26: CRC24 is one OK response with `crc24`, which `crc24_eq_wideCrc24` shows, by induction on the data, to be
the unbounded algorithm. -/
theorem crc24IsTheUnboundedAlgorithm : Obligations.Crc24IsTheUnboundedAlgorithm := by
  intro poly init d s
  rw [exec_crc24, respondOk_eq_answered, crc24_eq_wideCrc24]

end Sys2Proof.Machine
end

section
/-! The obligation on the channel index (44_assembler.md, R222, R223): HOP and BEGIN alone move it, which is O14. -/

namespace Sys2Proof.Machine

/-- Of the commands without a payload, HOP and BEGIN alone may move the channel index (R220, R222, R223). -/
theorem Effect.chanIdx_eq {i : Instr} {s : State} {e : Engine} {es : List RadioEvent} {c : Byte} {b : Bytes}
    (h : Effect i s e es c b) (hhop : i ≠ .hop) (hbegin : i ≠ .beginRadio) : e.chanIdx = s.eng.chanIdx := by
  cases i with
  | hop => exact absurd rfl hhop
  | beginRadio => exact absurd rfl hbegin
  | assemble | asmseq | adv | advseq => exact h.elim
  | revb | revbuf | chunk | whiten | whitench | crc24 | getcfg | lenavail | decode =>
    obtain ⟨rfl, -⟩ := h
    rfl
  | setmac =>
    obtain ⟨-, ⟨-, -, m, rfl⟩ | ⟨-, -, -, rfl⟩⟩ := h <;> rfl
  | setname =>
    obtain ⟨-, ⟨-, -, rfl⟩ | ⟨-, -, -, rfl⟩⟩ := h <;> rfl
  | clrname =>
    obtain ⟨-, -, rfl⟩ := h
    rfl
  | setpwr =>
    obtain ⟨-, ⟨-, -, rfl⟩ | ⟨-, -, -, rfl⟩ | ⟨-, -, -, -, rfl⟩ | ⟨-, -, -, rfl⟩⟩ := h <;> rfl
  | poll =>
    obtain ⟨-, rfl | ⟨r, -, rfl⟩, -⟩ := h <;> rfl
  | read =>
    obtain ⟨-, -, rfl⟩ := h
    rfl

/-- Settles O14: by `exec_answers` a command with a payload leaves the engine as it was, and `Effect.chanIdx_eq` speaks
of the rest. -/
theorem onlyHopAndBeginMoveTheChannel : Obligations.OnlyHopAndBeginMoveTheChannel := by
  intro i s t hexec hmoved
  obtain ⟨u, e, es, c, b, hexec', hafter, heffect⟩ := exec_answers i s
  obtain rfl : t = u := Host.Outcome.next.inj (hexec.symm.trans hexec')
  rw [hafter.eng] at hmoved
  by_contra hother
  obtain ⟨hhop, hbegin⟩ := not_or.mp hother
  rcases heffect with heffect | ⟨-, -, hkept, -⟩
  · exact hmoved (heffect.chanIdx_eq hhop hbegin)
  · exact hmoved (congrArg Engine.chanIdx hkept)

end Sys2Proof.Machine
end

section
/-! The obligations on the disassembler (45_disassembler.md, R272–R274): DECODE, which is O43; the chunk walk, which is
O44; and the dispatch of one chunk by its type, which is O45. `dispatchChunk` and `dispatchService` have one equation per
case, and `receive_accepted`, `receive_dropped` and `walkChunks_chunks` carry the checks and the walk. -/

namespace Sys2Proof.Machine

/-! ### DECODE (R272, R285) -/

theorem exec_decode (d : Bytes) (s : State) :
    exec (.decode d) s = .next (respondOk (recordResult (receive s.eng.chanIdx d)) s) := rfl

/-- Settles O43: `receive` gives the record of an accepted buffer and nothing for any other, and DECODE is one OK
response with it. -/
theorem decodeAcceptsWhatTheChecksPass : Obligations.DecodeAcceptsWhatTheChecksPass := by
  intro d s
  rw [exec_decode, respondOk_eq_answered]
  constructor
  · intro g e haccepted
    rw [receive_accepted haccepted]
    rfl
  · intro hdropped
    rw [receive_dropped hdropped]
    rfl

/-! ### The chunk walk (R273) -/

/-- The record of an AD region that is whole chunks and a tail: the chunks dispatched in order, then the tail as one raw
fragment. -/
theorem parseRecord_chunks {g : Bytes} {e : Nat} {cs : List AdChunk} {tail : Bytes} (hc : ∀ c ∈ cs, AdChunkFits c)
    (ht : UnparsedTail tail) (had : (g.take e).drop parseStart = cs.flatMap adChunkBytes ++ tail) :
    parseRecord g e
      = (let r := cs.foldl (fun r c => dispatchChunk c.1 c.2 (adChunkBytes c) r)
          { mac := macAt g 2, name := .absent, power := none, data := [] }
         if tail = [] then r else addItem (.raw tail) r) := by
  unfold parseRecord
  rw [had]
  exact walkChunks_chunks cs tail _ hc ht le_rfl

/-- Settles O44: `adRegion_split` cuts every AD region into chunks and a tail, and `parseRecord_chunks` walks them. -/
theorem parseWalksTheChunks : Obligations.ParseWalksTheChunks := by
  refine ⟨fun ad => adRegion_split ad.length ad le_rfl, ?_⟩
  intro g e cs tail h8 he hc ht had
  exact ⟨macAt g 2, macAt_bytes g (h8.trans he), parseRecord_chunks hc ht had⟩

/-! ### One chunk (R274) -/

theorem dispatchChunk_flags (body whole : Bytes) (r : Record) : dispatchChunk 0x01#8 body whole r = r := rfl

theorem dispatchChunk_power (v : Byte) (whole : Bytes) (r : Record) :
    dispatchChunk 0x0A#8 [v] whole r = { r with power := some v } := rfl

/-- A power chunk whose body is not one byte is kept whole. -/
theorem dispatchChunk_power_raw {body : Bytes} (h : body.length ≠ 1) (whole : Bytes) (r : Record) :
    dispatchChunk 0x0A#8 body whole r = addItem (.raw whole) r := by
  match body with
  | [] => rfl
  | [_] => exact absurd rfl h
  | _ :: _ :: _ => rfl

theorem dispatchChunk_name (body whole : Bytes) (r : Record) :
    dispatchChunk 0x08#8 body whole r = { r with name := if validUtf8 body then .text body else .raw body } := rfl

theorem dispatchChunk_service (body whole : Bytes) (r : Record) :
    dispatchChunk 0x16#8 body whole r = dispatchService body whole r := rfl

/-- A chunk of any other type is kept whole. -/
theorem dispatchChunk_other {t : Byte} (hflags : t ≠ flagsType) (hpower : t ≠ powerType) (hname : t ≠ nameType)
    (hsvc : t ≠ svcType) (body whole : Bytes) (r : Record) :
    dispatchChunk t body whole r = addItem (.raw whole) r := by
  unfold dispatchChunk
  rw [if_neg hflags, if_neg hpower, if_neg hname, if_neg hsvc]

/-- Service data of a recognised UUID is that UUID's item. -/
theorem dispatchService_known {u0 u1 : Byte} {k : SvcKind} (h : svcKind (u1 ++ u0) = some k) (rest whole : Bytes)
    (r : Record) : dispatchService (u0 :: u1 :: rest) whole r = addItem (.svc (u1 ++ u0) k rest) r := by
  simp only [dispatchService, u16le, h]

/-- Service data of a UUID that is not recognised is kept whole. -/
theorem dispatchService_unknown {u0 u1 : Byte} (h : svcKind (u1 ++ u0) = none) (rest whole : Bytes) (r : Record) :
    dispatchService (u0 :: u1 :: rest) whole r = addItem (.raw whole) r := by
  simp only [dispatchService, u16le, h]

/-- Service data too short for a UUID is kept whole. -/
theorem dispatchService_short {body : Bytes} (h : body.length < 2) (whole : Bytes) (r : Record) :
    dispatchService body whole r = addItem (.raw whole) r := by
  match body with
  | [] | [_] => rfl
  | _ :: _ :: rest => exact absurd h (by simp)

/-- Settles O45: the equations of `dispatchChunk` and `dispatchService`, case by case. -/
theorem chunkTypesAreDispatched : Obligations.ChunkTypesAreDispatched := by
  intro t body whole r
  refine ⟨?flags, ?power, ?powerRaw, ?nameText, ?nameRaw, ?svcKnown, ?svcUnknown, ?svcShort, ?other⟩
  case flags =>
    rintro rfl
    exact dispatchChunk_flags body whole r
  case power =>
    rintro rfl v rfl
    exact dispatchChunk_power v whole r
  case powerRaw =>
    rintro rfl hlen
    exact dispatchChunk_power_raw hlen whole r
  case nameText =>
    rintro rfl hvalid
    rw [dispatchChunk_name, if_pos hvalid]
  case nameRaw =>
    rintro rfl hinvalid
    rw [dispatchChunk_name, if_neg (Bool.eq_false_iff.mp hinvalid)]
  case svcKnown =>
    rintro rfl u0 u1 rest k rfl hkind
    exact dispatchService_known hkind rest whole r
  case svcUnknown =>
    rintro rfl u0 u1 rest rfl hkind
    exact dispatchService_unknown hkind rest whole r
  case svcShort =>
    rintro rfl hlen
    exact dispatchService_short hlen whole r
  case other =>
    intro hflags hpower hname hsvc
    exact dispatchChunk_other hflags hpower hname hsvc body whole r

end Sys2Proof.Machine
end

section
/-! The obligations on the refused frames (60_exceptions.md, R321, R323): E_ILLEGAL, which is O5, and E_MALFORMED, which is
O6. `step_refused` and `step_command` say what a step does with the outcome of decoding; the lemmas here say which frames
have which outcome, and that no command answers 0x01, so that E_ILLEGAL is the decoder's alone. -/

namespace Sys2Proof.Machine

/-! ### Which frames are refused (R94, R97) -/

theorem listed_iff_not_illegal {op : Byte} : op ∈ listedOpcodes ↔ ¬ IllegalOpcode op := by
  rw [listed_iff, illegal_iff_unlisted, Bool.not_eq_true, Option.isNone_eq_false_iff]

theorem decodeFrame_illegal {op : Byte} (h : IllegalOpcode op) (r : Bytes) :
    decodeFrame (op :: r) = .error (.illegalOpcode op) := by
  have hrow : opcodeRow op = none := Option.isNone_iff_eq_none.mp ((illegal_iff_unlisted op).mp h)
  simp only [decodeFrame, hrow]

/-- A listed opcode before operands that its format does not give (R94). -/
theorem decodeFrame_misshapen {op : Byte} {r : Bytes} (hop : ¬ IllegalOpcode op) (hshape : ¬ WellShaped (op :: r)) :
    decodeFrame (op :: r) = .error (.lengthMismatch op) := by
  rcases decodeFrame_cases (op :: r) with ⟨hnil, -⟩ | ⟨op', r', heq, hillegal, -⟩ | ⟨op', r', heq, -, -, hd⟩ |
    ⟨-, -, -, -, -, hwell, -⟩
  · exact absurd hnil (List.cons_ne_nil op r)
  · obtain ⟨rfl, rfl⟩ := List.cons.inj heq
    exact absurd hillegal hop
  · obtain ⟨rfl, rfl⟩ := List.cons.inj heq
    exact hd
  · exact absurd hwell hshape

/-! ### E_ILLEGAL is the decoder's alone (R320, R321) -/

/-- No command without a payload answers E_ILLEGAL. -/
theorem Effect.status_ne_illegal {i : Instr} {s : State} {e : Engine} {es : List RadioEvent} {c : Byte} {b : Bytes}
    (h : Effect i s e es c b) : c ≠ 0x01#8 := by
  cases i with
  | assemble | asmseq | adv | advseq => exact h.elim
  | revb | revbuf | whiten | whitench | crc24 | getcfg | lenavail | decode =>
    obtain ⟨-, -, rfl⟩ := h
    decide
  | chunk =>
    obtain ⟨-, -, ⟨-, rfl⟩ | ⟨-, rfl, -⟩⟩ := h <;> decide
  | setmac | setname =>
    obtain ⟨-, ⟨-, rfl, -⟩ | ⟨-, rfl, -⟩⟩ := h <;> decide
  | setpwr =>
    obtain ⟨-, ⟨-, rfl, -⟩ | ⟨-, -, rfl, -⟩ | ⟨-, -, rfl, -⟩ | ⟨-, rfl, -⟩⟩ := h <;> decide
  | beginRadio =>
    obtain ⟨rfl, -⟩ | ⟨rfl, -⟩ := h <;> decide
  | clrname =>
    obtain ⟨-, rfl, -⟩ := h
    decide
  | hop | poll | read =>
    obtain ⟨rfl, -⟩ := h
    decide

/-- Every command answers a response whose status is another than E_ILLEGAL. -/
theorem exec_status_ne_illegal (i : Instr) (s : State) :
    ∃ t c b, exec i s = .next t ∧ t.responses = s.responses ++ [c :: b] ∧ c ≠ 0x01#8 := by
  obtain ⟨t, e, es, c, b, hexec, hafter, heffect⟩ := exec_answers i s
  refine ⟨t, c, b, hexec, hafter.responses, ?_⟩
  rcases heffect with heffect | ⟨h, -, -, ⟨-, rfl, -⟩ | ⟨-, -, rfl, -⟩ | ⟨-, -, f, ok, -, rfl, -⟩⟩
  · exact heffect.status_ne_illegal
  · decide
  · decide
  · cases ok <;> decide

/-- Settles O5: a frame with an illegal opcode is refused by the decoder; any other is either misshapen, and answered
0x02, or runs a command, and `exec_status_ne_illegal` speaks of its status. -/
theorem illegalOpcodesAnswerIllegal : Obligations.IllegalOpcodesAnswerIllegal := by
  intro s op r rest hcmd
  refine ⟨fun hillegal => step_refused hcmd (decodeFrame_illegal hillegal r), fun hlegal => ?_⟩
  by_cases hshape : WellShaped (op :: r)
  · obtain ⟨i, hd⟩ := decode_of_wellShaped hshape
    obtain ⟨t, c, b, hexec, hresp, hc⟩ := exec_status_ne_illegal i (consumed s rest)
    exact ⟨t, c :: b, (step_command hcmd hd).trans hexec, hresp, fun heq => hc (Option.some.inj heq)⟩
  · exact ⟨_, [0x02#8], step_refused hcmd (decodeFrame_misshapen hlegal hshape), rfl, by decide⟩

/-- Settles O6: the decoder refuses the empty frame and, by `decodeFrame_misshapen`, the misshapen one with the errors that
answer 0x02; a well-shaped frame decodes. -/
theorem misshapenFramesAnswerMalformed : Obligations.MisshapenFramesAnswerMalformed := by
  intro s f rest hcmd
  constructor
  · rintro (rfl | ⟨⟨op, hlisted, hhead⟩, hshape⟩)
    · exact step_refused hcmd rfl
    · obtain ⟨r, rfl⟩ := List.head?_eq_some_iff.mp hhead
      exact step_refused hcmd (decodeFrame_misshapen (listed_iff_not_illegal.mp hlisted) hshape)
  · intro hshape
    obtain ⟨i, hd⟩ := decode_of_wellShaped hshape
    exact ⟨i, hd, step_command hcmd hd⟩

end Sys2Proof.Machine
end

section
/-! The obligation on E_BUDGET (60_exceptions.md, R327), which is O40: `exec_over` gives the answer and the frame of every
assembly command over budget, and the bounds on the budget make the amount fit its two bytes. -/

namespace Sys2Proof.Machine

/-- The greatest overflow amount: the longest payload against the least budget of a reachable name (R33, R327). -/
theorem overflow_le {i : Instr} {e : Engine} {h : Nat} (hp : payloadSize i = some h) (hw : i.wellFormed = true)
    (hn : NameFits e) : -budgetLeft e h ≤ 65030 := by
  have hh : h ≤ 65025 := payloadSize_le hp hw
  have hb : -5 - (h : Int) ≤ budgetLeft e h := budgetLeft_ge hn h
  omega

/-- Settles O40: the two bytes of the answer are `le16` of the amount, which `overflow_le` keeps below `2 ^ 16`. -/
theorem overBudgetReportsTheAmount : Obligations.OverBudgetReportsTheAmount := by
  intro i s h hp hb
  refine ⟨_, _, exec_over hp hb, fun hn hw => ?_⟩
  have hle : -budgetLeft s.eng h ≤ 65030 := overflow_le hp hw hn
  have hamount := amount_le16 (n := (-budgetLeft s.eng h).toNat) (by omega)
  exact ⟨by omega, by omega, hle⟩

end Sys2Proof.Machine
end

section
/-! The obligations on the errors of single commands (60_exceptions.md, R325, R328, R329): SETNAME, which is O29; SETPWR,
which is O31; and BEGIN, which is O34. Each command has one equation per outcome, in the terms of `answered` and
`answeredWith`. -/

namespace Sys2Proof.Machine

/-- An OK response after a write of the engine's fields: the radio carried nothing. -/
theorem respondOk_engine (b : Bytes) (e : Engine) (s : State) :
    respondOk b { s with eng := e } = answeredWith s e [] (0x00#8 :: b) := by
  simp only [answeredWith, List.append_nil]
  rfl

/-! ### SETNAME (R193) -/

theorem exec_setname (d : Bytes) (s : State) :
    exec (.setname d) s
      = .next (if d.length > nameLimit s.eng then raiseErr .name s else respondOk [] (setName (some d) s)) := rfl

theorem exec_setname_fits {d : Bytes} {s : State} (h : d.length ≤ nameLimit s.eng) :
    exec (.setname d) s = .next (answeredWith s { s.eng with name := some d } [] [0x00#8]) := by
  rw [exec_setname, if_neg (Nat.not_lt.mpr h)]
  exact congrArg _ (respondOk_engine [] _ s)

theorem exec_setname_tooLong {d : Bytes} {s : State} (h : nameLimit s.eng < d.length) :
    exec (.setname d) s = .next (answered s [0x12#8]) := by
  rw [exec_setname, if_pos h]
  rfl

/-- Settles O29: the limit is 18, or 15 when power is shown, by `nameLimit_eq`. -/
theorem setnameStoresWithinTheLimit : Obligations.SetnameStoresWithinTheLimit := by
  intro d s
  rw [← nameLimit_eq]
  exact ⟨exec_setname_fits, exec_setname_tooLong⟩

/-! ### SETPWR (R198) -/

theorem exec_setpwr (a : Byte) (s : State) :
    exec (.setpwr a) s
      = .next (if a.toNat > 1 then raiseErr .reserved s
        else if a.toNat = 1 ∧ s.eng.name.isSome ∧ nameLen s.eng > powerEnableNameLimit then raiseErr .noroom s
        else respondOk [] (setShowPower (decide (a.toNat = 1)) s)) := rfl

/-- The model's check of the name before power is shown, as R198 words it. -/
theorem nameTooLongForPower_iff (e : Engine) :
    (e.name.isSome ∧ nameLen e > powerEnableNameLimit) ↔ ∃ n, e.name = some n ∧ 16 < n.length := by
  cases h : e.name with
  | none => simp
  | some n => simp [nameLen, h, powerEnableNameLimit]

theorem exec_setpwr_off (s : State) :
    exec (.setpwr 0x00#8) s = .next (answeredWith s { s.eng with showPower := false } [] [0x00#8]) :=
  congrArg _ (respondOk_engine [] _ s)

theorem exec_setpwr_on {s : State} (h : ¬ ∃ n, s.eng.name = some n ∧ 16 < n.length) :
    exec (.setpwr 0x01#8) s = .next (answeredWith s { s.eng with showPower := true } [] [0x00#8]) := by
  rw [← nameTooLongForPower_iff] at h
  have hcheck : ¬ ((0x01#8 : Byte).toNat = 1 ∧ s.eng.name.isSome ∧ nameLen s.eng > powerEnableNameLimit) :=
    fun ⟨_, hname⟩ => h hname
  rw [exec_setpwr, if_neg (by decide), if_neg hcheck]
  exact congrArg _ (respondOk_engine [] _ s)

theorem exec_setpwr_noroom {s : State} (h : ∃ n, s.eng.name = some n ∧ 16 < n.length) :
    exec (.setpwr 0x01#8) s = .next (answered s [0x13#8]) := by
  rw [← nameTooLongForPower_iff] at h
  have hcheck : (0x01#8 : Byte).toNat = 1 ∧ s.eng.name.isSome ∧ nameLen s.eng > powerEnableNameLimit := ⟨rfl, h⟩
  rw [exec_setpwr, if_neg (by decide), if_pos hcheck]
  rfl

theorem exec_setpwr_reserved {a : Byte} (h : 1 < a.toNat) (s : State) :
    exec (.setpwr a) s = .next (answered s [0x03#8]) := by
  rw [exec_setpwr, if_pos h]
  rfl

/-- Settles O31: one equation of SETPWR for each of the four cases. -/
theorem setpwrChecksTheName : Obligations.SetpwrChecksTheName := by
  intro a s
  refine ⟨?off, ?on, ?noroom, ?reserved⟩
  case off =>
    rintro rfl
    exact exec_setpwr_off s
  case on =>
    rintro rfl hshort
    exact exec_setpwr_on fun ⟨n, hn, hlong⟩ => absurd (hshort n hn) (Nat.not_le.mpr hlong)
  case noroom =>
    rintro rfl hlong
    exact exec_setpwr_noroom hlong
  case reserved =>
    exact fun h => exec_setpwr_reserved h s

/-! ### BEGIN (R220, R329) -/

theorem exec_beginRadio (s : State) :
    exec .beginRadio s
      = .next (if nextBool s then respondOk [] (configureRadio (radioBegin s))
        else raiseErr .radioInit (radioBegin s)) := rfl

/-- The configuration of R220 as one update: the 10 transactions after `begin`, the index and the flag. -/
theorem configureRadio_eq (s : State) :
    configureRadio s = { s with
      eng := { s.eng with chanIdx := 0, configured := true }
      radioLog := s.radioLog ++ (beginConfig ++ [.setChannel 2, .setPower true, .setListen true]) } := by
  rw [← List.append_assoc]
  rfl

theorem exec_begin_ready {s : State} (h : nextBool s = true) :
    exec .beginRadio s = .next (answeredWith (takeBool s) { s.eng with chanIdx := 0, configured := true }
      (.beginRadio true :: (beginConfig ++ [.setChannel 2, .setPower true, .setListen true])) [0x00#8]) := by
  rw [exec_beginRadio, if_pos h, radioBegin_eq, h, configureRadio_eq, logEvents_radioLog, List.append_assoc,
    List.singleton_append]
  rfl

theorem exec_begin_failed {s : State} (h : nextBool s = false) :
    exec .beginRadio s = .next (answeredWith (takeBool s) s.eng [.beginRadio false] [0x20#8]) := by
  rw [exec_beginRadio, if_neg (Bool.eq_false_iff.mp h), radioBegin_eq, h]
  rfl

/-- Settles O34: the two outcomes of BEGIN, by what `Radio.begin` answered. -/
theorem beginConfiguresTheRadio : Obligations.BeginConfiguresTheRadio := by
  intro s
  exact ⟨exec_begin_ready, exec_begin_failed⟩

end Sys2Proof.Machine
end

section
/-! The obligation on the host's side of a step (70_reset_and_hazards.md, R9, R42, R100, R374), which is O9: `step_idle`
says that nothing happens without a frame, and a pending frame is either refused with one answer or runs a command, which
answers once by O10. -/

namespace Sys2Proof.Machine

/-- Every error is answered with at least its code (R322). -/
theorem errResponse_ne_nil (e : Err) : errResponse e ≠ [] := List.cons_ne_nil _ _

/-- Settles O9: a frame that does not decode is answered by `step_refused`; one that decodes runs its command on the state
without the frame, where `everyCommandCompletes` gives the one response and keeps the frames left. -/
theorem everyFrameIsAnsweredOnce : Obligations.EveryFrameIsAnsweredOnce := by
  refine ⟨fun _ hidle => step_idle hidle, fun s f rest hcmd => ?_⟩
  cases hd : decodeFrame f with
  | error x => exact ⟨_, _, step_refused hcmd hd, errResponse_ne_nil (frameErr x), rfl, rfl, rfl⟩
  | ok i =>
    obtain ⟨t, b, -, hexec, hne, hresp, hhpc, hcmdIn, -⟩ := everyCommandCompletes i (consumed s rest)
    exact ⟨t, b, (step_command hcmd hd).trans hexec, hne, hresp, hhpc, hcmdIn⟩

end Sys2Proof.Machine
end

section
/-! The inversion of a command that has run: which field of the engine each command writes, and which transactions a
command with a payload issues. The claims over all commands below rest on these, so that no proof walks through
`exec` or `Effect` again for one field. -/

namespace Sys2Proof.Machine

/-- What a command with a payload answers and transmits: over budget, assembled, or advertised (R235, R244). -/
def PayloadEffect (i : Instr) (s : State) (es : List RadioEvent) (c : Byte) (b : Bytes) : Prop :=
  ∃ h, payloadSize i = some h ∧
    ((budgetLeft s.eng h < 0 ∧ c = 0x11#8 ∧ b = le16 (BitVec.ofNat 16 (-(budgetLeft s.eng h)).toNat) ∧ es = [])
      ∨ (0 ≤ budgetLeft s.eng h ∧ ¬ Transmits i ∧ c = 0x00#8 ∧ es = powerEvents s)
      ∨ (0 ≤ budgetLeft s.eng h ∧ Transmits i ∧ ∃ f ok, es = powerEvents s ++ [.setListen false, .write f ok]
          ∧ c = (if ok then 0x00#8 else 0x21#8) ∧ b = []))

/-- A command that has run did what its rule says, and nothing else. -/
theorem exec_next_cases {i : Instr} {s t : State} (h : exec i s = .next t) :
    ∃ e es c b, After s t e es c b ∧ (Effect i s e es c b ∨ e = s.eng ∧ PayloadEffect i s es c b) := by
  obtain ⟨u, e, es, c, b, hexec, hafter, heffect⟩ := exec_answers i s
  obtain rfl : t = u := Host.Outcome.next.inj (h.symm.trans hexec)
  refine ⟨e, es, c, b, hafter, heffect.imp_right ?_⟩
  rintro ⟨n, hp, he, hcases⟩
  exact ⟨he, n, hp, hcases⟩

/-- The engine before and after a command, by the field the command writes (R31–R36). -/
inductive EngineChange (e : Engine) : Instr → Engine → Prop where
  | unchanged (i : Instr) : EngineChange e i e
  | mac (d : Bytes) (m : Mac) : EngineChange e (.setmac d) { e with mac := m }
  | name (d : Bytes) : d.length ≤ (if e.showPower then 15 else 18) →
      EngineChange e (.setname d) { e with name := some d }
  | noName : EngineChange e .clrname { e with name := none }
  | powerOff (a : Byte) : EngineChange e (.setpwr a) { e with showPower := false }
  | powerOn (a : Byte) : (∀ n, e.name = some n → n.length ≤ 16) →
      EngineChange e (.setpwr a) { e with showPower := true }
  | configured : EngineChange e .beginRadio { e with chanIdx := 0, configured := true }
  | channel (j : Fin 3) : EngineChange e .hop { e with chanIdx := j }
  | queued (r : Record) : ValidatedRecord r → EngineChange e .poll { e with rxq := e.rxq ++ [r] }
  | popped : EngineChange e .read { e with rxq := e.rxq.tail }

theorem Effect.engineChange {i : Instr} {s : State} {e : Engine} {es : List RadioEvent} {c : Byte} {b : Bytes}
    (h : Effect i s e es c b) : EngineChange s.eng i e := by
  cases i with
  | assemble | asmseq | adv | advseq => exact h.elim
  | revb | revbuf | chunk | whiten | whitench | crc24 | getcfg | lenavail | decode =>
    obtain ⟨rfl, -⟩ := h
    exact .unchanged _
  | setmac d =>
    obtain ⟨-, ⟨-, -, m, rfl⟩ | ⟨-, -, -, rfl⟩⟩ := h
    · exact .mac d m
    · exact .unchanged _
  | setname d =>
    obtain ⟨-, ⟨hd, -, rfl⟩ | ⟨-, -, -, rfl⟩⟩ := h
    · exact .name d hd
    · exact .unchanged _
  | clrname =>
    obtain ⟨-, -, rfl⟩ := h
    exact .noName
  | setpwr a =>
    obtain ⟨-, ⟨-, -, rfl⟩ | ⟨-, hn, -, rfl⟩ | ⟨-, -, -, -, rfl⟩ | ⟨-, -, -, rfl⟩⟩ := h
    · exact .powerOff a
    · exact .powerOn a hn
    · exact .unchanged _
    · exact .unchanged _
  | beginRadio =>
    obtain ⟨-, rfl, -⟩ | ⟨-, -, rfl, -⟩ := h
    · exact .configured
    · exact .unchanged _
  | hop =>
    obtain ⟨-, j, rfl, -⟩ := h
    exact .channel j
  | poll =>
    obtain ⟨-, rfl | ⟨r, hr, rfl⟩, -⟩ := h
    · exact .unchanged _
    · exact .queued r hr
  | read =>
    obtain ⟨-, -, rfl⟩ := h
    exact .popped

/-- Every command changes the engine only in the field that is its own. -/
theorem exec_engineChange {i : Instr} {s t : State} (h : exec i s = .next t) : EngineChange s.eng i t.eng := by
  obtain ⟨e, es, c, b, hafter, heffect⟩ := exec_next_cases h
  rw [hafter.eng]
  rcases heffect with heffect | ⟨rfl, -⟩
  · exact heffect.engineChange
  · exact .unchanged i

end Sys2Proof.Machine
end

section
/-! The obligation on the codec (30_encoding.md, R91–R95), which is O1: the frame of a command decodes back to it, one
lemma of `Laws.RoundTrip` for each of the 21 commands. -/

namespace Sys2Proof

/-- Settles O1: command by command, by the round trip of its format. -/
theorem encodedCommandDecodesBack : Obligations.EncodedCommandDecodesBack := by
  intro i
  cases i with
  | revb a => exact Laws.RoundTrip.revb a
  | revbuf d => exact Laws.RoundTrip.revbuf d
  | chunk a d => exact Laws.RoundTrip.chunk a d
  | whiten a d => exact Laws.RoundTrip.whiten a d
  | whitench d => exact Laws.RoundTrip.whitench d
  | crc24 p q d => exact Laws.RoundTrip.crc24 p q d
  | setmac d => exact Laws.RoundTrip.setmac d
  | setname d => exact Laws.RoundTrip.setname d
  | clrname => exact Laws.RoundTrip.clrname
  | setpwr a => exact Laws.RoundTrip.setpwr a
  | getcfg => exact Laws.RoundTrip.getcfg
  | beginRadio => exact Laws.RoundTrip.beginRadio
  | hop => exact Laws.RoundTrip.hop
  | lenavail a => exact Laws.RoundTrip.lenavail a
  | assemble a d => exact Laws.RoundTrip.assemble a d
  | asmseq seq => exact Laws.RoundTrip.asmseq seq
  | adv a d => exact Laws.RoundTrip.adv a d
  | advseq seq => exact Laws.RoundTrip.advseq seq
  | poll => exact Laws.RoundTrip.poll
  | read => exact Laws.RoundTrip.read
  | decode d => exact Laws.RoundTrip.decode d

end Sys2Proof
end

section
/-! The obligations on the invariant of names, queue and host counter (10_state.md, R33, R36, R42; 70_reset_and_hazards.md,
R360): it holds at reset, which is O56, and every step keeps it, which is O57. -/

namespace Sys2Proof.Machine

/-- Settles O56: no name, an empty queue, and no response yet. -/
theorem invariantHoldsAtReset : Obligations.InvariantHoldsAtReset :=
  ⟨fun _ hn => (Option.some_ne_none _ hn.symm).elim, fun _ hr => (List.not_mem_nil hr).elim, rfl⟩

/-- SETNAME and SETPWR check the limits of R33; no other command writes the name or the flag. -/
theorem EngineChange.nameFits {i : Instr} {e e' : Engine} (h : EngineChange e i e') (hn : NameFits e) : NameFits e' := by
  cases h with
  | unchanged | mac | configured | channel | queued | popped => exact hn
  | name d hd =>
    rintro n hdn
    obtain rfl : d = n := Option.some.inj hdn
    split at hd
    · exact ⟨by omega, fun _ => by omega⟩
    · rename_i hp
      exact ⟨hd, fun hp' => absurd hp' hp⟩
  | noName => exact fun n hnone => (Option.some_ne_none n hnone.symm).elim
  | powerOff => exact fun n hen => ⟨(hn n hen).1, fun hp => absurd hp Bool.false_ne_true⟩
  | powerOn a hshort => exact fun n hen => ⟨(hn n hen).1, fun _ => hshort n hen⟩

/-- POLL appends a validated record and READ takes one away; no other command writes the queue. -/
theorem EngineChange.queueValidated {i : Instr} {e e' : Engine} (h : EngineChange e i e')
    (hq : ∀ r ∈ e.rxq, ValidatedRecord r) : ∀ r ∈ e'.rxq, ValidatedRecord r := by
  cases h with
  | unchanged | mac | name | noName | powerOff | powerOn | configured | channel => exact hq
  | queued x hx =>
    intro r hr
    rcases List.mem_append.mp hr with hr | hr
    · exact hq r hr
    · rwa [List.mem_singleton.mp hr]
  | popped => exact fun r hr => hq r (List.mem_of_mem_tail hr)

/-- Settles O57: a refused frame only adds a response and counts it; a command adds one response, counts it, and changes
the engine as `exec_engineChange` says. -/
theorem everyStepKeepsTheInvariant : Obligations.EveryStepKeepsTheInvariant := by
  intro s t hinv hstep
  obtain ⟨hname, hqueue, hhpc⟩ := hinv
  obtain ⟨f, rest, -, ⟨i, -, hexec⟩ | ⟨c, -, rfl⟩⟩ := step_cases hstep
  · have hchange := exec_engineChange hexec
    obtain ⟨e, es, c, b, hafter, -⟩ := exec_next_cases hexec
    refine ⟨hchange.nameFits hname, hchange.queueValidated hqueue, ?_⟩
    rw [hafter.hpc, hafter.responses, List.length_append]
    exact congrArg (· + 1) hhpc
  · refine ⟨hname, hqueue, ?_⟩
    simp [answered, consumed, hhpc]

end Sys2Proof.Machine
end

section
/-! The obligations on the assembler (44_assembler.md, R226–R248): the budget and the PDU that ASSEMBLE, ASMSEQ, ADV and
ADVSEQ make of a payload, which are O13, O33, O36, O37, O38, O39 and O41. `assemblePayload_within`,
`advertisePayload_within` and `exec_over` say what a payload does; the lemmas here put them in the terms of
`referencePdu`. -/

namespace Sys2Proof.Machine

/-! ### What an assembly command changes (R248) -/

theorem EngineChange.setmac_of_mac_ne {i : Instr} {e e' : Engine} (h : EngineChange e i e') (hmac : e'.mac ≠ e.mac) :
    ∃ d, i = .setmac d := by
  cases h with
  | mac d m => exact ⟨d, rfl⟩
  | _ => exact absurd rfl hmac

/-- Settles O13: a command with a payload answers and transmits only, and SETMAC alone is the writer of the MAC. -/
theorem assemblyChangesNoEngineState : Obligations.AssemblyChangesNoEngineState := by
  constructor
  · intro i s h hp
    obtain ⟨t, es, c, b, hexec, hafter, -⟩ := exec_payload hp s
    exact ⟨t, hexec, hafter.eng⟩
  · intro i s t hexec hmac
    exact (exec_engineChange hexec).setmac_of_mac_ne hmac

/-! ### The budget (R226–R228) -/

theorem exec_lenavail (a : Byte) (s : State) :
    exec (.lenavail a) s = .next (respondOk (le16 (BitVec.ofInt 16 (budget s.eng a.toNat))) s) := rfl

/-- Settles O36: the response is `le16` of the budget, which the reachable names keep within 16 bits. -/
theorem lenavailAnswersTheBudget : Obligations.LenavailAnswersTheBudget := by
  intro a s
  refine ⟨_, _, ?_, le16_append _, fun hn => ?_⟩
  · rw [exec_lenavail, respondOk_eq_answered, budget_eq_budgetLeft]
    rfl
  · have ha : a.toNat < 256 := a.isLt
    have hge : -5 - (a.toNat : Int) ≤ budgetLeft s.eng a.toNat := budgetLeft_ge hn a.toNat
    have hle : budgetLeft s.eng a.toNat ≤ 18 - a.toNat := budgetLeft_le s.eng a.toNat
    refine ⟨?_, by omega, by omega⟩
    rw [le16_append, BitVec.toInt_ofInt]
    exact Int.bmod_eq_of_le (by omega) (by omega)

/-! ### The PDU (R231–R235) -/

/-- ASSEMBLE and ASMSEQ within the budget answer the PDU of R234. -/
theorem exec_assembled {i : Instr} {h : Nat} (hp : payloadSize i = some h) (ht : ¬ Transmits i) {s : State}
    (hb : 0 ≤ budgetLeft s.eng h) :
    exec i s = .next (answeredWith (afterPower s) s.eng (powerEvents s)
      (0x00#8 :: referencePdu s (payloadBytes i))) := by
  rw [exec_assemble hp ht, assemblePayload_within hb, ← pdu_eq_referencePdu, payloadBytes_length hp]

/-- ADV and ADVSEQ within the budget write the on-air frame of the PDU of R234. -/
theorem exec_advertised {i : Instr} {h : Nat} (hp : payloadSize i = some h) (ht : Transmits i) {s : State}
    (hb : 0 ≤ budgetLeft s.eng h) :
    exec i s = .next (answeredWith (takeBool (afterPower s)) s.eng
      (powerEvents s ++ [.setListen false,
        .write (onAir s.eng.chanIdx (referencePdu s (payloadBytes i))) (nextBool (afterPower s))])
      (if nextBool (afterPower s) then [0x00#8] else [0x21#8])) := by
  rw [exec_advertise hp ht, advertisePayload_within hb, ← pdu_eq_referencePdu, payloadBytes_length hp]

/-- Settles O37: the payload has the length it announces, and the answer is `exec_assembled`. -/
theorem assembleAnswersThePdu : Obligations.AssembleAnswersThePdu := by
  intro i s h hp ht hb
  exact ⟨payloadBytes_length hp, exec_assembled hp ht hb⟩

/-- Settles O38: `exec_advertised`, `onAir` being whitening and bit reversal. -/
theorem advWritesTheOnAirFrame : Obligations.AdvWritesTheOnAirFrame := by
  intro i s h hp ht hb
  exact ⟨nextBool (afterPower s), rfl, exec_advertised hp ht hb⟩

/-- Settles O39: the length byte is `30 - budget`, the body before the CRC has `29 - budget` bytes, and the budget is at
most 18. -/
theorem pduLengthByteCountsWhatFollows : Obligations.PduLengthByteCountsWhatFollows := by
  intro s payload hb
  have hbyte := lengthByte_toNat hb
  have hlen := referencePdu_length s payload
  have hle : budgetLeft s.eng payload.length ≤ 18 - payload.length := budgetLeft_le s.eng payload.length
  obtain ⟨body, hsplit, -, hbody⟩ := referencePdu_split s payload
  refine ⟨_, referencePdu_lengthByte s payload, by omega, by omega, by omega, by omega, ?_,
    pdu_eq_referencePdu s payload⟩
  rw [hbyte, show (30 - budgetLeft s.eng payload.length).toNat - 1 = body.length by omega, hsplit,
    List.drop_left, List.take_left]

/-! ### Single buffers and sequences (R230) -/

theorem singlePayload_eq_sequencePayload (a : Byte) (d : Bytes) :
    singlePayload a d = sequencePayload [BitVec.ofNat 8 (d.length + 1) :: a :: d] := by
  simp [singlePayload_eq, sequencePayload]

/-- Settles O41: the two commands of each pair differ in the payload only, and the payloads are equal. -/
theorem singleBufferIsTheSequenceOfItsChunk : Obligations.SingleBufferIsTheSequenceOfItsChunk := by
  intro a d s _
  have hpayload := singlePayload_eq_sequencePayload a d
  exact ⟨congrArg (fun p => Host.Outcome.next (assemblePayload p s)) hpayload,
    congrArg (fun p => Host.Outcome.next (advertisePayload p s)) hpayload⟩

/-! ### The order of name and power (R235, R372) -/

/-- A name of 16 bytes and the power chunk take 3 bytes more than the whole budget. -/
theorem budgetLeft_fullName {e : Engine} {n : Bytes} (hn : e.name = some n) (hlen : n.length = 16)
    (hp : e.showPower = true) (h : Nat) : budgetLeft e h = -(h + 3 : Int) := by
  simp only [budgetLeft, hn, hlen, hp, if_true]
  omega

/-- Settles O33: `exec_setname_fits` then `exec_setpwr_on`, after which `exec_over` answers `h + 3`; in the other order the
name meets the limit 15. -/
theorem nameAndPowerOrderMatters : Obligations.NameAndPowerOrderMatters := by
  constructor
  · intro s n hpower hlen
    have hfits : n.length ≤ nameLimit s.eng := by
      rw [nameLimit_eq, hpower, hlen]
      decide
    refine ⟨_, _, exec_setname_fits hfits, exec_setpwr_on ?_, by simp [answeredWith], rfl, ?_⟩
    · rintro ⟨m, hm, hlong⟩
      obtain rfl : n = m := Option.some.inj hm
      omega
    · intro i h hp hw
      have hle : h ≤ 65025 := payloadSize_le hp hw
      refine ⟨_, _, exec_over hp ?_, ?_⟩
      · rw [budgetLeft_fullName rfl hlen rfl]
        omega
      · rw [budgetLeft_fullName rfl hlen rfl, amount_le16 (by omega)]
        omega
  · intro s n hname hlen
    refine ⟨_, exec_setpwr_on ?_, rfl, exec_setname_tooLong ?_⟩
    · rintro ⟨m, hm, -⟩
      exact absurd (hname.symm.trans hm) (Option.some_ne_none m).symm
    · rw [nameLimit_eq, hlen]
      exact Nat.lt_succ_self 15

end Sys2Proof.Machine
end

section
/-! The obligations on the receive pipeline (45_disassembler.md, R270–R286; 70_reset_and_hazards.md, R373): the front end,
which is O42; POLL and READ, which are O48 and O49; and the PDU of a full budget, which is O52. POLL has one equation for
each answer of `Radio.available`. -/

namespace Sys2Proof.Machine

/-! ### The front end (R271) -/

theorem rxFront_take (i : Fin 3) (raw : Bytes) (n : Nat) : rxFront i (raw.take n) = (rxFront i raw).take n := by
  simp only [rxFront, revbuf_take, whiten_take]

/-- Settles O42: the front end is defined so, and bit reversal and whitening are involutions that act byte by byte. -/
theorem receiveFrontUndoesTheOnAirFrame : Obligations.ReceiveFrontUndoesTheOnAirFrame :=
  ⟨fun _ _ => rfl, rxFront_onAir, rxFront_take⟩

/-! ### READ (R283) -/

theorem exec_read (s : State) :
    exec .read s = .next (respondOk (recordResult s.eng.rxq.head?) (setRxq s.eng.rxq.tail s)) := rfl

/-- READ answers the oldest record, if there is one, and drops it. -/
theorem exec_read_engine (s : State) :
    exec .read s = .next (answeredWith s { s.eng with rxq := s.eng.rxq.tail } []
      (0x00#8 :: recordResult s.eng.rxq.head?)) := by
  rw [exec_read]
  exact congrArg _ (respondOk_engine _ _ s)

theorem setRxq_tail_of_empty {s : State} (h : s.eng.rxq = []) : setRxq s.eng.rxq.tail s = s := by
  have htail : s.eng.rxq.tail = s.eng.rxq := by rw [h, List.tail_nil]
  rw [htail]
  rfl

/-- Settles O49: the head of the queue is answered and its tail is left; from an empty queue that changes nothing. -/
theorem readPopsTheOldestRecord : Obligations.ReadPopsTheOldestRecord := by
  intro s
  constructor
  · intro hempty
    rw [exec_read, setRxq_tail_of_empty hempty, respondOk_eq_answered, hempty]
    rfl
  · intro r q hq
    rw [exec_read_engine, hq]
    rfl

/-! ### POLL (R280) -/

theorem exec_poll (s : State) :
    exec .poll s
      = .next (respondOk [if (pollRadio s).eng.rxq.isEmpty then 0x00#8 else 0x01#8] (pollRadio s)) := rfl

/-- Whether a queue is empty, as POLL answers it. -/
theorem queueAnswer_eq (q : List Record) :
    (if q.isEmpty then 0x00#8 else 0x01#8 : Byte) = if q = [] then 0x00#8 else 0x01#8 := by
  cases q <;> rfl

/-- What is received, if anything, goes to the end of the queue. -/
theorem enqueue_eq (r : Option Record) (s : State) : enqueue r s = setRxq (s.eng.rxq ++ r.toList) s := by
  cases r with
  | none => simp only [enqueue, setRxq, Option.toList_none, List.append_nil]
  | some x => rfl

theorem exec_poll_idle {s : State} (h : nextBool s = false) :
    exec .poll s = .next (answeredWith (takeBool s) s.eng [.available false]
      [0x00#8, if s.eng.rxq = [] then 0x00#8 else 0x01#8]) := by
  rw [exec_poll, pollRadio_idle h, queueAnswer_eq]
  rfl

theorem exec_poll_ready {s : State} (h : nextBool s = true) {raw : Bytes} {q : List Record}
    (hraw : nextBytes (takeByte (takeBool s)) = raw) (hq : s.eng.rxq ++ (receive s.eng.chanIdx raw).toList = q) :
    exec .poll s = .next (answeredWith (takeBytes (takeByte (takeBool s))) { s.eng with rxq := q }
      [.available true, .getPayloadSize (nextByte (takeBool s)), .read (nextByte (takeBool s)) raw]
      [0x00#8, if q = [] then 0x00#8 else 0x01#8]) := by
  subst hraw hq
  rw [exec_poll, pollRadio_ready h, enqueue_eq, queueAnswer_eq]
  rfl

/-- Settles O48: the two outcomes of POLL; what it received is the record of an accepted buffer, or nothing. -/
theorem pollReceivesAtMostOneFrame : Obligations.PollReceivesAtMostOneFrame := by
  intro s
  refine ⟨exec_poll_idle, fun hready => ⟨_, _, _, rfl, rfl, ?_, ?_, exec_poll_ready hready rfl rfl⟩⟩
  · intro g e haccepted
    rw [receive_accepted haccepted, Option.toList_some]
  · intro hdropped
    rw [receive_dropped hdropped, Option.toList_none, List.append_nil]

/-! ### The PDU of a full budget (R373) -/

/-- A length byte of 30 or more fails the checks of R272. -/
theorem not_accepted_of_lengthByte {f : Bytes} {l : Byte} (h : f[1]? = some l) (hl : 30 ≤ l.toNat) :
    ¬ ∃ g e, Accepted f g e := by
  rintro ⟨g, e, l', hl', hlt, -⟩
  obtain rfl : l = l' := Option.some.inj (h.symm.trans hl')
  omega

theorem exec_decode_lengthByte {s : State} {d : Bytes} {l : Byte} (h : (rxFront s.eng.chanIdx d)[1]? = some l)
    (hl : 30 ≤ l.toNat) : exec (.decode d) s = .next (answered s [0x00#8, 0x00#8]) :=
  (decodeAcceptsWhatTheChecksPass d s).2 (not_accepted_of_lengthByte h hl)

/-- POLL leaves the engine as it was when the frame it reads is dropped. -/
theorem exec_poll_dropped {s : State} (h : nextBool s = true)
    (hd : ¬ ∃ g e, Accepted (rxFront s.eng.chanIdx (nextBytes (takeByte (takeBool s)))) g e) :
    ∃ t, exec .poll s = .next t ∧ t.eng = s.eng := by
  refine ⟨_, exec_poll_ready h rfl rfl, ?_⟩
  rw [receive_dropped hd, Option.toList_none, List.append_nil]
  rfl

theorem referencePdu_lengthByte_full {s : State} {payload : Bytes} (h : budgetLeft s.eng payload.length = 0) :
    (referencePdu s payload)[1]? = some 30#8 := by
  rw [referencePdu_lengthByte, h]
  rfl

/-- The on-air frame of a full-budget PDU is dropped by DECODE on the same channel. -/
theorem exec_decode_full {s u : State} {payload : Bytes} (h : budgetLeft s.eng payload.length = 0)
    (hch : u.eng.chanIdx = s.eng.chanIdx) :
    exec (.decode (onAir s.eng.chanIdx (referencePdu s payload))) u = .next (answered u [0x00#8, 0x00#8]) := by
  refine exec_decode_lengthByte (l := 30#8) ?_ (by decide)
  rw [hch, rxFront_onAir, referencePdu_lengthByte_full h]

/-- Settles O52: no such buffer is accepted, and a PDU with no budget left has the length byte 30. -/
theorem fullBudgetPduIsNeverAccepted : Obligations.FullBudgetPduIsNeverAccepted := by
  constructor
  · intro s d l hbyte hl
    refine ⟨exec_decode_lengthByte hbyte hl, fun hready hraw => exec_poll_dropped hready ?_⟩
    rw [hraw]
    exact not_accepted_of_lengthByte hbyte hl
  · intro s u payload hfull hch
    exact ⟨referencePdu_lengthByte_full hfull, exec_decode_full hfull hch⟩

end Sys2Proof.Machine
end

section
/-! The obligations on a PDU that travels from one engine to another on the same channel (44_assembler.md and
45_disassembler.md, R231–R287): ADV to POLL, which is O54, and ASMSEQ to DECODE, which is O53. A PDU that leaves a byte of
the budget unused is accepted; its AD region is the flags chunk and the payload, so that parsing gives the payload's chunks
back as items. -/

namespace Sys2Proof.Machine

/-! ### From ADV to POLL (R280) -/

/-- An engine on the same channel receives the PDU's frame as a record with the sender's MAC. -/
theorem receive_onAir_referencePdu {s : State} {payload : Bytes} (hb : 0 < budgetLeft s.eng payload.length) :
    ∃ r, receive s.eng.chanIdx (onAir s.eng.chanIdx (referencePdu s payload)) = some r ∧ r.mac = s.eng.mac := by
  obtain ⟨body, -, -, haccepted⟩ := referencePdu_accepted hb
  have hfront : Accepted (rxFront s.eng.chanIdx (onAir s.eng.chanIdx (referencePdu s payload))) (referencePdu s payload)
      body.length := by
    rw [rxFront_onAir]
    exact haccepted
  exact ⟨_, receive_accepted hfront, (parseRecord_fits haccepted).2.trans (macAt_referencePdu s payload)⟩

/-- Settles O54: the frame is the on-air frame of `exec_advertised`, and POLL appends what it receives. -/
theorem advertisedFrameIsReceived : Obligations.AdvertisedFrameIsReceived := by
  intro s t u i h f ok hp ht hb hexec hlast hch hready hraw
  obtain rfl : _ = t := Host.Outcome.next.inj ((exec_advertised hp ht (by omega)).symm.trans hexec)
  obtain ⟨rfl, -⟩ : onAir s.eng.chanIdx (referencePdu s (payloadBytes i)) = f ∧ nextBool (afterPower s) = ok := by
    simpa [answeredWith] using hlast
  rw [← payloadBytes_length hp] at hb
  obtain ⟨r, hreceive, hmac⟩ := receive_onAir_referencePdu hb
  have hqueue : u.eng.rxq ++ (receive u.eng.chanIdx (onAir s.eng.chanIdx (referencePdu s (payloadBytes i)))).toList
      = u.eng.rxq ++ [r] := by
    rw [hch, hreceive, Option.toList_some]
  refine ⟨_, r, exec_poll_ready hready hraw hqueue, rfl, hmac, ?_⟩
  simp [answeredWith]

/-! ### From ASMSEQ to DECODE (R287) -/

/-- With no name and no power shown the payload has the whole budget of 18 bytes. -/
theorem budgetLeft_plain {e : Engine} (hn : e.name = none) (hp : e.showPower = false) (h : Nat) :
    budgetLeft e h = 18 - h := by
  simp [budgetLeft, hn, hp]

/-- With no power shown the assembler asks the radio nothing: ASMSEQ is one response. -/
theorem exec_asmseq_plain {s : State} {seq : List Bytes} (hp : s.eng.showPower = false)
    (hb : 0 ≤ budgetLeft s.eng seq.flatten.length) :
    exec (.asmseq seq) s = .next (answered s (0x00#8 :: referencePdu s seq.flatten)) := by
  rw [exec_assembled rfl id hb]
  simp [answeredWith, answered, afterPower, powerEvents, hp, payloadBytes]

/-- The flags chunk of every PDU (R234). -/
def flagsChunk : AdChunk := (0x01#8, [0x05#8])

/-- The AD region of a PDU with no name and no power: the flags chunk, then the payload (R232). -/
theorem pduBody_adRegion {s : State} (hn : s.eng.name = none) (hp : s.eng.showPower = false) (payload : Bytes) :
    (pduBody s.eng { h := payload.length, bytes := payload } (powerByte s)).drop parseStart
      = adChunkBytes flagsChunk ++ payload := by
  rw [pduBody_eq, hn, hp]
  rfl

/-- Parsing a PDU whose payload is whole chunks other than flags, name and power gives their items in order. -/
theorem parseRecord_referencePdu {s : State} {cs : List AdChunk} {body : Bytes} (hn : s.eng.name = none)
    (hp : s.eng.showPower = false)
    (hc : ∀ c ∈ cs, AdChunkFits c ∧ c.1 ≠ 0x01#8 ∧ c.1 ≠ 0x08#8 ∧ c.1 ≠ 0x0A#8)
    (hbody : body = pduBody s.eng { h := (cs.flatMap adChunkBytes).length, bytes := cs.flatMap adChunkBytes }
      (powerByte s))
    (htake : (referencePdu s (cs.flatMap adChunkBytes)).take body.length = body) :
    parseRecord (referencePdu s (cs.flatMap adChunkBytes)) body.length
      = { mac := s.eng.mac, name := .absent, power := none, data := cs.map expectedItem } := by
  have hfits : ∀ c ∈ flagsChunk :: cs, AdChunkFits c := by
    intro c hmem
    rcases List.mem_cons.mp hmem with rfl | hmem
    · exact Nat.le_of_ble_eq_true rfl
    · exact (hc c hmem).1
  have hregion : ((referencePdu s (cs.flatMap adChunkBytes)).take body.length).drop parseStart
      = (flagsChunk :: cs).flatMap adChunkBytes ++ [] := by
    rw [htake, hbody, pduBody_adRegion hn hp, List.append_nil, List.flatMap_cons]
  rw [parseRecord_chunks (tail := []) hfits trivial hregion, if_pos rfl, List.foldl_cons, macAt_referencePdu]
  exact dispatchChunks_expected cs _ fun c hmem => (hc c hmem).2

/-- Framing the items of a payload's chunks again gives the payload. -/
theorem flatMap_rechunk_expectedItem (cs : List AdChunk) :
    (cs.map expectedItem).flatMap rechunk = cs.flatMap adChunkBytes := by
  simp only [List.flatMap_map, rechunk_expectedItem]

/-- Settles O53: up to 17 bytes leave a byte of the budget, so the PDU is accepted and `parseRecord_referencePdu` gives
the record; 18 bytes are a full budget. -/
theorem pduRoundTrip : Obligations.PduRoundTrip := by
  constructor
  · intro s u seq cs hn hp hch hc hseq hlen
    have hbudget : budgetLeft s.eng seq.flatten.length = 18 - (seq.flatten.length : Int) := budgetLeft_plain hn hp _
    refine ⟨_, exec_asmseq_plain hp (by omega), ?_, (flatMap_rechunk_expectedItem cs).trans hseq.symm⟩
    rw [hseq] at hbudget hlen ⊢
    obtain ⟨body, hbody, htake, haccepted⟩ := referencePdu_accepted (s := s) (p := cs.flatMap adChunkBytes) (by omega)
    rw [← parseRecord_referencePdu hn hp hc hbody htake]
    refine (decodeAcceptsWhatTheChecksPass _ u).1 _ _ ?_
    rw [hch, rxFront_onAir]
    exact haccepted
  · intro s u seq hn hp hch hlen
    have hfull : budgetLeft s.eng seq.flatten.length = 0 := by
      rw [budgetLeft_plain hn hp, hlen]
      rfl
    exact ⟨_, exec_asmseq_plain hp hfull.ge, referencePdu_lengthByte_full hfull, exec_decode_full hfull hch⟩

end Sys2Proof.Machine
end

section
/-! The obligations on the record (45_disassembler.md, R274–R276, R286): UTF-8 names, which is O47; service kinds, which is
O46; and the response encoding, field by field, which is O51, and injective, which is O50. -/

namespace Sys2Proof.Machine

/-! ### UTF-8 (R275) -/

/-- A valid name that is not empty starts with a row of the table, and what follows is valid. -/
theorem utf8Sequence_of_validUtf8 {b : Bytes} (hne : b ≠ []) (h : validUtf8 b = true) :
    ∃ x r, Utf8Sequence x ∧ b = x ++ r ∧ validUtf8 r = true := by
  unfold validUtf8 at h
  split at h
  · exact absurd rfl hne
  rename_i b1 r1
  split_ifs at h with h1
  · exact ⟨[b1], r1, .one b1 (inRange_iff.mp h1), rfl, h⟩
  split at h
  · exact absurd h Bool.false_ne_true
  rename_i b2 r2
  split_ifs at h with h2
  · rw [Bool.and_eq_true, inRange_iff, inRange_iff] at h2
    exact ⟨[b1, b2], r2, .two b1 b2 h2.1 h2.2, rfl, h⟩
  split at h
  · exact absurd h Bool.false_ne_true
  rename_i b3 r3
  split_ifs at h with h3
  · simp only [Bool.and_eq_true, Bool.or_eq_true, inRange_iff] at h3
    obtain ⟨((⟨p1, p2⟩ | ⟨p1, p2⟩) | ⟨p1, p2⟩) | ⟨p1, p2⟩, p3⟩ := h3
    · exact ⟨[b1, b2, b3], r3, .threeE0 b1 b2 b3 p1 p2 p3, rfl, h⟩
    · exact ⟨[b1, b2, b3], r3, .threeE1 b1 b2 b3 p1 p2 p3, rfl, h⟩
    · exact ⟨[b1, b2, b3], r3, .threeED b1 b2 b3 p1 p2 p3, rfl, h⟩
    · exact ⟨[b1, b2, b3], r3, .threeEE b1 b2 b3 p1 p2 p3, rfl, h⟩
  split at h
  · exact absurd h Bool.false_ne_true
  rename_i b4 r4
  split_ifs at h with h4
  simp only [Bool.and_eq_true, Bool.or_eq_true, inRange_iff] at h4
  obtain ⟨⟨(⟨p1, p2⟩ | ⟨p1, p2⟩) | ⟨p1, p2⟩, p3⟩, p4⟩ := h4
  · exact ⟨[b1, b2, b3, b4], r4, .fourF0 b1 b2 b3 b4 p1 p2 p3 p4, rfl, h⟩
  · exact ⟨[b1, b2, b3, b4], r4, .fourF1 b1 b2 b3 b4 p1 p2 p3 p4, rfl, h⟩
  · exact ⟨[b1, b2, b3, b4], r4, .fourF4 b1 b2 b3 b4 p1 p2 p3 p4, rfl, h⟩

theorem Utf8Sequence.ne_nil {x : Bytes} (h : Utf8Sequence x) : x ≠ [] := by
  cases h <;> exact List.cons_ne_nil _ _

/-- A valid name is cut into rows of the table, one at a time. -/
theorem utf8Sequences_of_validUtf8 (n : Nat) (b : Bytes) (hn : b.length ≤ n) (h : validUtf8 b = true) :
    ∃ l : List Bytes, (∀ x ∈ l, Utf8Sequence x) ∧ b = l.flatten := by
  induction n generalizing b with
  | zero => exact ⟨[], fun _ hx => (List.not_mem_nil hx).elim, List.length_eq_zero_iff.mp (Nat.le_zero.mp hn)⟩
  | succ n ih =>
    by_cases hne : b = []
    · exact ⟨[], fun _ hx => (List.not_mem_nil hx).elim, hne⟩
    · obtain ⟨x, r, hx, rfl, hr⟩ := utf8Sequence_of_validUtf8 hne h
      have hpos : 0 < x.length := List.length_pos_iff.mpr hx.ne_nil
      rw [List.length_append] at hn
      obtain ⟨l, hl, rfl⟩ := ih r (by omega) hr
      exact ⟨x :: l, List.forall_mem_cons.mpr ⟨hx, hl⟩, List.flatten_cons.symm⟩

theorem validUtf8_flatten {l : List Bytes} (h : ∀ x ∈ l, Utf8Sequence x) : validUtf8 l.flatten = true := by
  induction l with
  | nil => rfl
  | cons x l ih =>
    obtain ⟨hx, hl⟩ := List.forall_mem_cons.mp h
    rw [List.flatten_cons, validUtf8_sequence hx]
    exact ih hl

/-- Settles O47: one row of the table at a time, in both directions; a name chunk keeps its bytes. -/
theorem utf8IsTheTablesConcatenations : Obligations.Utf8IsTheTablesConcatenations := by
  refine ⟨fun b => ⟨utf8Sequences_of_validUtf8 b.length b le_rfl, ?_⟩, fun b whole r hvalid => ?_⟩
  · rintro ⟨l, hl, rfl⟩
    exact validUtf8_flatten hl
  · rw [dispatchChunk_name, if_pos hvalid]

/-! ### Service kinds (R276) -/

/-- Settles O46: the two open UUIDs are distinct from 0x180F and from each other, and `dispatchService_known` keeps the
body. -/
theorem serviceKindsFollowTheUuid : Obligations.ServiceKindsFollowTheUuid := by
  refine ⟨fun _ => rfl, ?_, ?_, fun u0 u1 rest whole k r hk => ?_⟩
  · rw [svcKind, if_neg uuidTemperature_ne_battery, if_pos rfl]
  · rw [svcKind, if_neg uuidUrl_ne_battery, if_neg uuidUrl_ne_uuidTemperature, if_pos rfl]
  · rw [dispatchChunk_service, dispatchService_known hk]
    rfl

/-! ### The record encoding (R286) -/

theorem macBytes_injective {m m' : Mac} (h : macBytes m = macBytes m') : m = m' := by
  cases m
  cases m'
  simpa [macBytes] using h

theorem encName_injective {n n' : RecordName} {x y : Bytes} (hn : RecordNameFits n) (hn' : RecordNameFits n')
    (h : encName n ++ x = encName n' ++ y) : n = n' ∧ x = y := by
  have bytes : ∀ {b b' : Bytes}, b.length ≤ 18 → b'.length ≤ 18 → lenBytes b ++ x = lenBytes b' ++ y → b = b' ∧ x = y :=
    fun hb hb' => lenBytes_injective (hb.trans (by decide)) (hb'.trans (by decide))
  cases n <;> cases n' <;> simp only [encName, List.cons_append, List.cons.injEq] at h
  case absent.absent => exact ⟨rfl, h.2⟩
  case text.text b b' =>
    obtain ⟨rfl, rfl⟩ := bytes hn.1 hn'.1 h.2
    exact ⟨rfl, rfl⟩
  case raw.raw b b' =>
    obtain ⟨rfl, rfl⟩ := bytes hn.1 hn'.1 h.2
    exact ⟨rfl, rfl⟩
  all_goals exact absurd h.1 (by decide)

theorem encPower_injective {p p' : Option Byte} {x y : Bytes} (h : encPower p ++ x = encPower p' ++ y) :
    p = p' ∧ x = y := by
  cases p <;> cases p' <;> simp only [encPower, List.cons_append, List.nil_append, List.cons.injEq] at h
  case none.none => exact ⟨rfl, h.2⟩
  case some.some v v' => exact ⟨congrArg some h.2.1, h.2.2⟩
  all_goals exact absurd h.1 (by decide)

/-- The count byte is the number of items. -/
theorem itemCount_toNat {d : List Item} (h : d.length ≤ 10) : (BitVec.ofNat 8 d.length).toNat = d.length :=
  Nat.mod_eq_of_lt (h.trans_lt (by decide))

/-- Settles O50: `ValidatedRecord.fits` gives the sizes, and the encoding is read off field by field, each field telling
where it ends. -/
theorem recordEncodingIsInjective : Obligations.RecordEncodingIsInjective := by
  refine ⟨fun _ => ValidatedRecord.fits, ?_⟩
  rintro ⟨m, n, p, d⟩ ⟨m', n', p', d'⟩ ⟨hn, hd, hx⟩ ⟨hn', hd', hx'⟩ h
  simp only [encRecord, List.append_assoc] at h
  obtain ⟨hmac, hafterMac⟩ := List.append_inj h rfl
  obtain ⟨(hname : n = n'), hafterName⟩ := encName_injective hn hn' hafterMac
  obtain ⟨hpower, hafterPower⟩ := encPower_injective hafterName
  obtain ⟨hcount, hafterCount⟩ := List.cons.inj hafterPower
  have hlen : d.length = d'.length := by rw [← itemCount_toNat hd, hcount, itemCount_toNat hd']
  have hdata : d = d' := encItems_injective hx hx' hlen hafterCount
  rw [macBytes_injective hmac, hname, hpower, hdata]

/-- A byte string of at most 20 bytes stands behind a byte that is its length. -/
theorem lenBytes_exact {b : Bytes} (h : b.length ≤ 20) : ∃ l : Byte, l.toNat = b.length ∧ lenBytes b = l :: b :=
  ⟨_, toNat_ofNat_length (h.trans (by decide)), rfl⟩

/-- Settles O51: `encRecord` is laid out so, and the sizes of a record that fits make every length byte exact. -/
theorem recordEncodingLayout : Obligations.RecordEncodingLayout := by
  rintro r ⟨hname, hcount, hitems⟩
  refine ⟨encName r.name, encPower r.power, BitVec.ofNat 8 r.data.length, rfl, ?absent, ?text, ?raw, ?noPower, ?power,
    itemCount_toNat hcount, fun x hx => ⟨?rawItem, ?svcItem⟩⟩
  case absent =>
    intro h
    rw [h]
    rfl
  case text =>
    intro b h
    rw [h] at hname ⊢
    obtain ⟨l, hl, hbytes⟩ := lenBytes_exact (hname.1.trans (by decide))
    exact ⟨l, hl, congrArg _ hbytes⟩
  case raw =>
    intro b h
    rw [h] at hname ⊢
    obtain ⟨l, hl, hbytes⟩ := lenBytes_exact (hname.1.trans (by decide))
    exact ⟨l, hl, congrArg _ hbytes⟩
  case noPower =>
    intro h
    rw [h]
    rfl
  case power =>
    intro v h
    rw [h]
    rfl
  case rawItem =>
    rintro b rfl
    obtain ⟨l, hl, hbytes⟩ := lenBytes_exact (hitems _ hx)
    exact ⟨l, hl, congrArg _ hbytes⟩
  case svcItem =>
    rintro u k b rfl
    obtain ⟨hb, -⟩ := hitems _ hx
    obtain ⟨l, hl, hbytes⟩ := lenBytes_exact (hb.trans (by decide))
    refine ⟨u.extractLsb' 0 8, u.extractLsb' 8 8, kindCode k, l, (le16_append u).symm, ?_, ?_, ?_, hl, ?_⟩
    · rintro rfl
      rfl
    · rintro rfl
      rfl
    · rintro rfl
      rfl
    · rw [encItem, hbytes]
      rfl

end Sys2Proof.Machine
end

section
/-! The other obligations on the codec (30_encoding.md, R91–R103): the decoder reads only frames that the encoder writes,
which is O2; the example frames, which is O3; and the end of a frame in a stream, which is O7. Format by format, by
`operands_some` and by the `frameEnd` lemmas. -/

namespace Sys2Proof

/-- The command a format makes of operands that fit is well formed, and its frame is the opcode and those operands, laid
out as R91 says. -/
def Format.Encodes (op : Byte) : Format → Prop
  | .f0 i => i.wellFormed = true ∧ encode i = [op]
  | .f1 k => ∀ a, (k a).wellFormed = true ∧ encode (k a) = [op, a]
  | .fb k => ∀ d, bufferFits d = true → (k d).wellFormed = true ∧ encode (k d) = op :: encodeBuffer d
  | .fab k => ∀ a d, bufferFits d = true → (k a d).wellFormed = true ∧ encode (k a d) = op :: a :: encodeBuffer d
  | .fc k => ∀ p q d, bufferFits d = true → (k p q d).wellFormed = true
      ∧ encode (k p q d) = op :: (bytesOfU24 p ++ bytesOfU24 q ++ encodeBuffer d)
  | .fs k => ∀ seq, sequenceFits seq = true → (k seq).wellFormed = true ∧ encode (k seq) = op :: encodeSequence seq

/-- Each of the 21 rows of the opcode map agrees with the encoder (R95). -/
theorem encodes_of_opcodeRow {op : Byte} {fmt : Format} (h : opcodeRow op = some fmt) : fmt.Encodes op := by
  rcases opcodeRow_cases h with h|h|h|h|h|h|h|h|h|h|h|h|h|h|h|h|h|h|h|h|h <;> obtain ⟨rfl, rfl⟩ := h
  all_goals simp +contextual [Format.Encodes, Instr.wellFormed, encode]

theorem Format.Encodes.frame_eq {op : Byte} {fmt : Format} {r : Bytes} {i : Instr} (he : fmt.Encodes op)
    (h : fmt.operands r = some i) : i.wellFormed = true ∧ encode i = op :: r := by
  rcases operands_some h with ⟨j, rfl, rfl, rfl⟩ | ⟨k, a, rfl, rfl, rfl⟩ | ⟨k, d, rfl, hd, rfl, rfl⟩ |
    ⟨k, a, d, rfl, hd, rfl, rfl⟩ | ⟨k, p, q, d, rfl, hd, rfl, rfl⟩ | ⟨k, seq, rfl, hs, rfl, rfl⟩
  · exact he
  · exact he a
  · exact he d (bufferFits_iff.mpr hd)
  · exact he a d (bufferFits_iff.mpr hd)
  · exact he p q d (bufferFits_iff.mpr hd)
  · exact he seq hs

/-- Settles O2: the operands of each format that make a command are the ones its frame carries. -/
theorem decodedFrameIsTheCommandsFrame : Obligations.DecodedFrameIsTheCommandsFrame := by
  intro f i h
  match f with
  | [] => simp [decodeFrame] at h
  | op :: r =>
    obtain ⟨fmt, hrow, hoperands⟩ := decodeFrame_cons.mp h
    exact (encodes_of_opcodeRow hrow).frame_eq hoperands

/-- Settles O3: each frame decodes by evaluation. -/
theorem spelledFramesDecode : Obligations.SpelledFramesDecode :=
  ⟨rfl, rfl, rfl, rfl, rfl, rfl, rfl, rfl, rfl⟩

/-- Settles O7: command by command, by the format of its opcode. -/
theorem streamShowsWhereAFrameEnds : Obligations.StreamShowsWhereAFrameEnds := by
  intro i more hw
  cases i with
  | revb | clrname | setpwr | getcfg | beginRadio | hop | lenavail | poll | read => rfl
  | revbuf | whitench | setmac | setname | decode => exact frameEnd_fb rfl (bufferFits_iff.mp hw) more
  | chunk a | whiten a | assemble a | adv a => exact frameEnd_fab rfl a (bufferFits_iff.mp hw) more
  | crc24 p q => exact frameEnd_fc rfl p q (bufferFits_iff.mp hw) more
  | asmseq | advseq => exact frameEnd_fs rfl hw more

end Sys2Proof
end

section
/-! The other obligations on the bit permuter, whitening and the CRC (40_bit_primitives.md, R134–R136; 41_whitening.md,
R151; 42_crc24.md, R172): O21, O22, O24 and O27, from the facts of Laws/Bits.lean. -/

namespace Sys2Proof.Machine

/-! ### Permuter and chunks -/

/-- Settles O21: the involutions of Laws/Bits.lean. -/
theorem bitReversalIsAnInvolution : Obligations.BitReversalIsAnInvolution :=
  ⟨rev8_rev8, fun d => ⟨revbuf_revbuf d, revbuf_length d⟩⟩

theorem exec_chunk (a : Byte) (d : Bytes) (s : State) :
    exec (.chunk a d) s = .next (if d.length + 1 > 255 then raiseErr .chunk s else respondOk (chunk d a) s) := rfl

/-- Settles O22: up to 254 bytes the length byte holds `N + 1`. -/
theorem chunkFramesOrRefuses : Obligations.ChunkFramesOrRefuses := by
  intro a d s
  constructor
  · intro hfits
    have hbyte : (BitVec.ofNat 8 (d.length + 1)).toNat = d.length + 1 := Nat.mod_eq_of_lt (by omega)
    refine ⟨BitVec.ofNat 8 (d.length + 1), hbyte, ?_⟩
    rw [exec_chunk, if_neg (by omega), respondOk_eq_answered]
    rfl
  · intro hlong
    rw [exec_chunk, if_pos (by omega)]
    rfl

/-! ### Whitening -/

/-- Byte `i` is whitened with the keystream, which is `whiten` of zeros (R151). -/
theorem whiten_getElem?_keystream {d : Bytes} (c : Byte) {i : Nat} (hi : i < d.length) :
    (whiten d c)[i]? = some (d.getD i 0#8 ^^^ (whiten (List.replicate d.length 0#8) c).getD i 0#8) := by
  have hout : i < (whiten d c).length := by rwa [whiten_length]
  have hzeros : ∀ b ∈ List.replicate d.length 0x00#8, b = 0x00#8 := fun b => List.eq_of_mem_replicate
  have hkey : i < (whiten (List.replicate d.length 0#8) c).length := by rwa [whiten_length, List.length_replicate]
  rw [List.getElem?_eq_getElem hout, whiten_getElem_xor d _ c i hzeros List.length_replicate hout,
    List.getD_eq_getElem _ _ hi, List.getD_eq_getElem _ _ hkey]

/-- The last thing a bit-step does to the register is to shift it right (R150). -/
theorem whitenBit_register_lt (x : Lfsr) : (whitenBit x).w.toNat < 0x80 := by
  have hlt := (if x.w.getLsbD 0 then x.w ^^^ whitenTap else x.w).isLt
  rw [whitenBit, BitVec.toNat_ushiftRight, Nat.shiftRight_eq_div_pow]
  omega

theorem whitenBit_topBit (x : Lfsr) : (whitenBit x).w.getLsbD 7 = false :=
  Nat.testBit_lt_two_pow (whitenBit_register_lt x)

/-- Settles O24: the keystream of `whiten_getElem?_keystream`; the register is shifted right in each bit-step, and the
coefficients have the values of `coef_toNat`. -/
theorem keystreamIsIndependentOfData : Obligations.KeystreamIsIndependentOfData := by
  refine ⟨fun d c i hi => whiten_getElem?_keystream c hi, whiten_whiten, fun x _ => whitenBit_register_lt x,
    fun x _ => whitenBit_topBit x, fun i => ?_⟩
  have hvalue := (coef_toNat i).2
  omega

/-! ### CRC24 -/

theorem crc24_zero (d : Bytes) : crc24 d 0#24 0#24 = [0x00#8, 0x00#8, 0x00#8] := by
  rw [crc24, crcRegister_zero]
  rfl

/-- Settles O27: the register of no data is `init`; a zero register stays zero under a zero polynomial; three bytes are
answered. -/
theorem crc24CornerCases : Obligations.Crc24CornerCases := by
  refine ⟨fun poly init s => ⟨_, _, _, (u24le_bytesOfU24 init).symm, ?_⟩, fun d s => ?_, fun poly init d s => ?_⟩
  · rw [exec_crc24, respondOk_eq_answered]
    rfl
  · rw [exec_crc24, respondOk_eq_answered, crc24_zero]
  · exact ⟨_, crc24_length d poly init, by rw [exec_crc24, respondOk_eq_answered]⟩

end Sys2Proof.Machine
end

section
/-! The obligations on the identity, the channel and the start of a command (43_identity.md, R190, R196, R201;
44_assembler.md, R222; 60_exceptions.md, R330; 70_reset_and_hazards.md, R360): SETMAC, CLRNAME and GETCFG, which are O28,
O30 and O32; HOP, which is O35; the step on a frame that decodes, which is O8; and reset, which is O55. -/

namespace Sys2Proof.Machine

/-! ### SETMAC (R190) -/

theorem exec_setmac (d : Bytes) (s : State) :
    exec (.setmac d) s = .next (if d.length > 6 then raiseErr .reserved s
      else if d.length = 6 then respondOk [] (setMac (macAt d 0) s)
      else respondOk [] (setMac (nextMac s) (takeMac s))) := rfl

/-- Six bytes are a MAC in index order (R63). -/
theorem macBytes_macAt_zero {d : Bytes} (h : d.length = 6) : macBytes (macAt d 0) = d := by
  match d with
  | [_, _, _, _, _, _] => rfl

/-- Settles O28: the three branches of SETMAC. -/
theorem setmacStoresOrDraws : Obligations.SetmacStoresOrDraws := by
  intro d s
  rw [exec_setmac]
  refine ⟨fun hlen => ⟨macAt d 0, macBytes_macAt_zero hlen, ?_⟩, fun hlen => ?_, fun hlen => ?_⟩
  · rw [if_neg (by omega), if_pos hlen]
    exact congrArg _ (respondOk_engine [] _ s)
  · rw [if_neg (by omega), if_neg (by omega)]
    exact congrArg _ (respondOk_engine [] _ (takeMac s))
  · rw [if_pos hlen]
    rfl

/-! ### CLRNAME (R196) -/

theorem exec_clrname (s : State) :
    exec .clrname s = .next (answeredWith s { s.eng with name := none } [] [0x00#8]) :=
  congrArg _ (respondOk_engine [] _ s)

/-- The budget without the name (R227). -/
theorem budget_noName {e : Engine} {n : Bytes} (hn : e.name = some n) (h : Nat) :
    budget { e with name := none } h = budget e h + n.length + 2 := by
  simp only [budget, name2, hn, powerTerm]
  omega

/-- Settles O30: CLRNAME writes the name only, and the budget counted `NAME_LEN + 2` for it. -/
theorem clrnameRegainsTheBudget : Obligations.ClrnameRegainsTheBudget := by
  intro s
  exact ⟨_, exec_clrname s, rfl, fun n h hn => budget_noName hn h⟩

/-! ### GETCFG (R201) -/

theorem exec_getcfg (s : State) : exec .getcfg s = .next (respondOk (configBytes s.eng) s) := rfl

/-- Settles O32: `configBytes`, with no name and with one. -/
theorem getcfgReportsTheIdentity : Obligations.GetcfgReportsTheIdentity := by
  intro s
  rw [exec_getcfg, respondOk_eq_answered]
  refine ⟨flagByte s.eng.name.isSome, s.eng.name.getD [], fun hnone => ?_, fun x hx => ?_, rfl⟩
  · rw [hnone]
    exact ⟨rfl, rfl⟩
  · rw [hx]
    exact ⟨rfl, rfl⟩

/-! ### HOP (R222) -/

theorem exec_hop (s : State) :
    exec .hop s = .next (answeredWith s { s.eng with chanIdx := nextIndex s.eng.chanIdx }
      [.setChannel (freq (nextIndex s.eng.chanIdx))] [0x00#8]) := rfl

/-- The index after each of the three, and its physical channel (R38, R222). -/
theorem nextIndex_freq (i : Fin 3) :
    (i = 0 → nextIndex i = 1 ∧ freq (nextIndex i) = 26) ∧ (i = 1 → nextIndex i = 2 ∧ freq (nextIndex i) = 80)
      ∧ (i = 2 → nextIndex i = 0 ∧ freq (nextIndex i) = 2) := by
  decide +revert

theorem nextIndex_three (i : Fin 3) : nextIndex (nextIndex (nextIndex i)) = i := by
  decide +revert

/-- Settles O35: the three indices of `nextIndex` and their channels; three HOPs are `nextIndex_three`. -/
theorem hopAdvancesCyclically : Obligations.HopAdvancesCyclically := by
  constructor
  · intro s
    obtain ⟨hzero, hone, htwo⟩ := nextIndex_freq s.eng.chanIdx
    exact ⟨_, _, hzero, hone, htwo, exec_hop s⟩
  · intro s
    refine ⟨_, _, _, exec_hop s, exec_hop _, exec_hop _, ?_⟩
    simp only [answeredWith, nextIndex_three]

/-! ### The step and reset (R330, R360) -/

/-- Settles O8: `step_command`, for a frame that decodes and, by O1, for the frame of a well-formed command. -/
theorem stepRunsTheDecodedCommand : Obligations.StepRunsTheDecodedCommand := by
  intro s f rest i hcmd
  refine ⟨step_command hcmd, ?_⟩
  rintro hw rfl
  exact step_command hcmd (encodedCommandDecodesBack i hw)

/-- Settles O55: the fields of `State.reset` as they are written. -/
theorem resetLeavesTheStatedValues : Obligations.ResetLeavesTheStatedValues :=
  ⟨rfl, rfl, rfl, rfl, rfl, rfl, rfl, rfl⟩

end Sys2Proof.Machine
end

section
/-! The obligations on all commands at once, by the inversion `exec_next_cases` (10_state.md, R33–R36; 60_exceptions.md,
R320–R334): the writers of each field, which is O15; precise errors, which is O11; and the cause of each status, which is
O12. -/

namespace Sys2Proof.Machine

/-! ### The writers of the fields (R33–R36) -/

/-- Settles O15: a change of a field leaves one constructor of `EngineChange` for the command. -/
theorem fieldsHaveTheirWriters : Obligations.FieldsHaveTheirWriters := by
  intro i s t hexec
  have hchange := exec_engineChange hexec
  generalize s.eng = e, t.eng = e' at hchange ⊢
  refine ⟨fun hname => ?_, fun hpower => ?_, fun hconfigured => ?_, fun hqueue => ?_⟩
  · cases hchange with
    | name d => exact .inl ⟨d, rfl, rfl⟩
    | noName => exact .inr ⟨rfl, rfl⟩
    | _ => exact absurd rfl hname
  · cases hchange with
    | powerOff a => exact ⟨a, rfl⟩
    | powerOn a => exact ⟨a, rfl⟩
    | _ => exact absurd rfl hpower
  · cases hchange with
    | configured => exact ⟨rfl, rfl⟩
    | _ => exact absurd rfl hconfigured
  · cases hchange with
    | queued r => exact .inl ⟨rfl, r, rfl⟩
    | popped => exact .inr ⟨rfl, rfl⟩
    | _ => exact absurd rfl hqueue

/-! ### Precise errors (R331, R334) -/

/-- A command without a payload that answers an error keeps the engine; BEGIN alone had issued a transaction. -/
theorem Effect.error_precise {i : Instr} {s : State} {e : Engine} {es : List RadioEvent} {c : Byte} {b : Bytes}
    (h : Effect i s e es c b) (hc : c ≠ 0x00#8) : e = s.eng ∧ (c ≠ 0x20#8 → es = []) := by
  cases i with
  | assemble | asmseq | adv | advseq => exact h.elim
  | revb | revbuf | whiten | whitench | crc24 | getcfg | lenavail | decode =>
    obtain ⟨-, -, hok⟩ := h
    exact absurd hok hc
  | chunk =>
    obtain ⟨he, hes, -⟩ := h
    exact ⟨he, fun _ => hes⟩
  | setmac | setname =>
    obtain ⟨hes, ⟨-, hok, -⟩ | ⟨-, -, -, he⟩⟩ := h
    · exact absurd hok hc
    · exact ⟨he, fun _ => hes⟩
  | clrname =>
    obtain ⟨-, hok, -⟩ := h
    exact absurd hok hc
  | setpwr =>
    obtain ⟨hes, ⟨-, hok, -⟩ | ⟨-, -, hok, -⟩ | ⟨-, -, -, -, he⟩ | ⟨-, -, -, he⟩⟩ := h
    · exact absurd hok hc
    · exact absurd hok hc
    · exact ⟨he, fun _ => hes⟩
    · exact ⟨he, fun _ => hes⟩
  | beginRadio =>
    obtain ⟨hok, -⟩ | ⟨hinit, -, he, -⟩ := h
    · exact absurd hok hc
    · exact ⟨he, fun hnot => absurd hinit hnot⟩
  | hop | poll | read =>
    obtain ⟨hok, -⟩ := h
    exact absurd hok hc

/-- A command with a payload that answers an error other than E_RADIO_WRITE had issued no transaction. -/
theorem PayloadEffect.error_precise {i : Instr} {s : State} {es : List RadioEvent} {c : Byte} {b : Bytes}
    (h : PayloadEffect i s es c b) (hc : c ≠ 0x00#8) (hw : c ≠ 0x21#8) : es = [] := by
  obtain ⟨n, -, ⟨-, -, -, hes⟩ | ⟨-, -, hok, -⟩ | ⟨-, -, f, ok, -, hstatus, -⟩⟩ := h
  · exact hes
  · exact absurd hok hc
  · cases ok
    · exact absurd hstatus hw
    · exact absurd hstatus hc

/-- A command that answers an error keeps the engine, and the radio log and the draws but for the radio's errors. -/
theorem exec_error_precise {i : Instr} {s t : State} {c : Byte} {b : Bytes} (hexec : exec i s = .next t)
    (hresp : t.responses = s.responses ++ [c :: b]) (hc : c ≠ 0x00#8) :
    t.eng = s.eng
      ∧ (c ≠ 0x20#8 → c ≠ 0x21#8 → t.radioLog = s.radioLog ∧ t.feed = s.feed ∧ t.draws = s.draws) := by
  obtain ⟨e, es, c', b', hafter, heffect⟩ := exec_next_cases hexec
  obtain ⟨rfl, rfl⟩ : c' = c ∧ b' = b := by simpa using hafter.responses.symm.trans hresp
  have hprecise : e = s.eng ∧ (c' ≠ 0x20#8 → c' ≠ 0x21#8 → es = []) := by
    rcases heffect with heffect | ⟨he, hpayload⟩
    · exact ⟨(heffect.error_precise hc).1, fun hinit _ => (heffect.error_precise hc).2 hinit⟩
    · exact ⟨he, fun _ => hpayload.error_precise hc⟩
  obtain ⟨he, hes⟩ := hprecise
  refine ⟨hafter.eng.trans he, fun hinit hwrite => ?_⟩
  obtain rfl := hes hinit hwrite
  exact ⟨by simpa using hafter.radioLog, hafter.quiet rfl hc⟩

/-- Settles O11: a refused frame only adds its response; a command is `exec_error_precise`. -/
theorem errorsArePrecise : Obligations.ErrorsArePrecise := by
  intro s t c b hstep hresp hc
  obtain ⟨f, rest, -, ⟨i, -, hexec⟩ | ⟨c', -, rfl⟩⟩ := step_cases hstep
  · exact exec_error_precise (s := consumed s rest) hexec hresp hc
  · exact ⟨rfl, fun _ _ => ⟨rfl, rfl, rfl⟩⟩

/-! ### The cause of each status (R320) -/

/-- The status `c` of a command is the one whose cause holds, and carries what R322 says (R320, R324–R331). -/
def StatusHasCause (i : Instr) (s : State) (es : List RadioEvent) (c : Byte) (b : Bytes) : Prop :=
  (c = 0x03#8 ↔ (∃ d, i = .setmac d ∧ d.length > 6) ∨ ∃ a, i = .setpwr a ∧ a.toNat > 1)
    ∧ (c = 0x10#8 ↔ ∃ a d, i = .chunk a d ∧ d.length ≥ 255)
    ∧ (c = 0x11#8 ↔ ∃ h, payloadSize i = some h ∧ budgetLeft s.eng h < 0)
    ∧ (c = 0x12#8 ↔ ∃ d, i = .setname d ∧ d.length > (if s.eng.showPower then 15 else 18))
    ∧ (c = 0x13#8 ↔ i = .setpwr 0x01#8 ∧ ∃ n, s.eng.name = some n ∧ n.length > 16)
    ∧ (c = 0x20#8 ↔ i = .beginRadio ∧ es = [.beginRadio false])
    ∧ (c = 0x21#8 ↔ Transmits i ∧ ∃ f, es = powerEvents s ++ [.setListen false, .write f false])
    ∧ c ∈ [0x00#8, 0x03#8, 0x10#8, 0x11#8, 0x12#8, 0x13#8, 0x20#8, 0x21#8]
    ∧ (c ≠ 0x00#8 → b.length = if c = 0x11#8 then 2 else 0)

theorem Effect.statusHasCause {i : Instr} {s : State} {e : Engine} {es : List RadioEvent} {c : Byte} {b : Bytes}
    (h : Effect i s e es c b) : StatusHasCause i s es c b := by
  cases i with
  | assemble | asmseq | adv | advseq => exact h.elim
  | revb | revbuf | whiten | whitench | crc24 | getcfg | lenavail | decode =>
    obtain ⟨-, -, rfl⟩ := h
    simp [StatusHasCause, payloadSize, Transmits]
  | clrname =>
    obtain ⟨-, rfl, -⟩ := h
    simp [StatusHasCause, payloadSize, Transmits]
  | hop | poll | read =>
    obtain ⟨rfl, -⟩ := h
    simp [StatusHasCause, payloadSize, Transmits]
  | chunk a d =>
    obtain ⟨-, -, ⟨hlen, rfl⟩ | ⟨hlen, rfl, rfl⟩⟩ := h <;>
      simp [StatusHasCause, payloadSize, Transmits, hlen]
  | setmac d =>
    obtain ⟨-, ⟨hlen, rfl, -⟩ | ⟨hlen, rfl, rfl, -⟩⟩ := h <;>
      simp [StatusHasCause, payloadSize, Transmits, hlen]
  | setname d =>
    obtain ⟨-, ⟨hlen, rfl, -⟩ | ⟨hlen, rfl, rfl, -⟩⟩ := h <;>
      simp [StatusHasCause, payloadSize, Transmits, hlen]
  | setpwr a =>
    obtain ⟨-, ⟨rfl, rfl, -⟩ | ⟨rfl, hname, rfl, -⟩ | ⟨rfl, hname, rfl, rfl, -⟩ | ⟨ha, rfl, rfl, -⟩⟩ := h
    · simp [StatusHasCause, payloadSize, Transmits]
    · simpa [StatusHasCause, payloadSize, Transmits] using hname
    · simp [StatusHasCause, payloadSize, Transmits, hname]
    · have hne : a ≠ 0x01#8 := fun h => absurd (h ▸ ha) (by decide)
      simp [StatusHasCause, payloadSize, Transmits, ha, hne]
  | beginRadio =>
    obtain ⟨rfl, -, rfl⟩ | ⟨rfl, rfl, -, rfl⟩ := h <;>
      simp [StatusHasCause, payloadSize, Transmits]

/-- A command with a payload can only be over budget, or fail to write. -/
theorem statusHasCause_of_payload {i : Instr} {n : Nat} (hp : payloadSize i = some n) {s : State}
    {es : List RadioEvent} {c : Byte} {b : Bytes} (hc : c = 0x00#8 ∨ c = 0x11#8 ∨ c = 0x21#8)
    (hbudget : c = 0x11#8 ↔ budgetLeft s.eng n < 0)
    (hwrite : c = 0x21#8 ↔ Transmits i ∧ ∃ f, es = powerEvents s ++ [.setListen false, .write f false])
    (hlen : c ≠ 0x00#8 → b.length = if c = 0x11#8 then 2 else 0) : StatusHasCause i s es c b := by
  have hbudget' : c = 0x11#8 ↔ ∃ h, payloadSize i = some h ∧ budgetLeft s.eng h < 0 := by simpa [hp] using hbudget
  have hother : c ≠ 0x03#8 ∧ c ≠ 0x10#8 ∧ c ≠ 0x12#8 ∧ c ≠ 0x13#8 ∧ c ≠ 0x20#8 := by
    rcases hc with rfl | rfl | rfl <;> decide
  obtain ⟨h03, h10, h12, h13, h20⟩ := hother
  refine ⟨iff_of_false h03 ?_, iff_of_false h10 ?_, hbudget', iff_of_false h12 ?_, iff_of_false h13 ?_,
    iff_of_false h20 ?_, hwrite, ?_, hlen⟩
  · rintro (⟨d, rfl, -⟩ | ⟨a, rfl, -⟩) <;> exact Option.some_ne_none n hp.symm
  · rintro ⟨a, d, rfl, -⟩
    exact Option.some_ne_none n hp.symm
  · rintro ⟨d, rfl, -⟩
    exact Option.some_ne_none n hp.symm
  · rintro ⟨rfl, -⟩
    exact Option.some_ne_none n hp.symm
  · rintro ⟨rfl, -⟩
    exact Option.some_ne_none n hp.symm
  · rcases hc with rfl | rfl | rfl <;> decide

theorem PayloadEffect.statusHasCause {i : Instr} {s : State} {es : List RadioEvent} {c : Byte} {b : Bytes}
    (h : PayloadEffect i s es c b) : StatusHasCause i s es c b := by
  obtain ⟨n, hp, ⟨hb, rfl, rfl, rfl⟩ | ⟨hb, ht, rfl, rfl⟩ | ⟨hb, ht, f, ok, rfl, rfl, rfl⟩⟩ := h
  · exact statusHasCause_of_payload hp (.inr (.inl rfl)) (iff_of_true rfl hb) (by simp) (fun _ => rfl)
  · exact statusHasCause_of_payload hp (.inl rfl) (iff_of_false (by decide) (Int.not_lt.mpr hb)) (by simp [ht])
      (fun hok => absurd rfl hok)
  · refine statusHasCause_of_payload hp ?_ (iff_of_false ?_ (Int.not_lt.mpr hb)) ?_ ?_ <;> cases ok <;> simp [ht]

/-- Settles O12: command by command, `Effect.statusHasCause` and `PayloadEffect.statusHasCause`. -/
theorem eachErrorStatusHasItsCause : Obligations.EachErrorStatusHasItsCause := by
  intro i s
  obtain ⟨t, e, es, c, b, hexec, hafter, heffect⟩ := exec_answers i s
  refine ⟨t, c, b, es, hexec, hafter.responses, hafter.radioLog, ?_⟩
  rcases heffect with heffect | ⟨n, hp, -, hcases⟩
  · exact heffect.statusHasCause
  · exact PayloadEffect.statusHasCause ⟨n, hp, hcases⟩

end Sys2Proof.Machine
end

section
/-! The obligation on the radio's transactions (20_memory.md, R64; 44_assembler.md, R220–R246; 45_disassembler.md, R280),
which is O18: each of the sixteen, and the commands that issue it. -/

namespace Sys2Proof.Machine

/-- What is known of a command `i` that led from `s` to `t` by a transaction of its radio (R64). -/
def Issues (i : Instr) (s t : State) : RadioEvent → Prop
  | .setChannel n => (i = .hop ∨ i = .beginRadio) ∧ ([2, 26, 80] : List Int)[t.eng.chanIdx.val]? = some n
  | .beginRadio _ | .setCrcLength _ | .setAutoAck _ | .setDynamicPayloads _ | .setRetries _ _ | .setAddressWidth _
  | .openTxPipe _ | .openRxPipe _ _ | .setPower _ | .setListen true => i = .beginRadio
  | .setListen false | .write _ _ => Transmits i
  | .available _ | .getPayloadSize _ | .read _ _ => i = .poll
  | .getPaLevel _ => s.eng.showPower = true ∧ ∃ h, payloadSize i = some h

/-- The physical channel of an index, as the table of R38. -/
theorem getElem?_freq (j : Fin 3) : ([2, 26, 80] : List Int)[j.val]? = some (freq j) := by
  decide +revert

theorem Effect.issues {i : Instr} {s t : State} {es : List RadioEvent} {c : Byte} {b : Bytes}
    (h : Effect i s t.eng es c b) : ∀ x ∈ es, Issues i s t x := by
  by_cases hnil : es = []
  · rw [hnil]
    exact fun x hx => (List.not_mem_nil hx).elim
  rcases h.issuer_of_events hnil with rfl | rfl | rfl
  · obtain ⟨-, he, rfl⟩ | ⟨-, -, -, rfl⟩ := h
    · have hindex : t.eng.chanIdx = 0 := congrArg Engine.chanIdx he
      simp [beginConfig, Issues, hindex, freq]
    · simp [Issues]
  · obtain ⟨-, j, he, rfl⟩ := h
    intro x hx
    obtain rfl : x = .setChannel (freq j) := List.mem_singleton.mp hx
    refine ⟨.inl rfl, ?_⟩
    rw [he]
    exact getElem?_freq j
  · obtain ⟨-, -, rfl | ⟨n, raw, rfl⟩⟩ := h <;> simp [Issues]

/-- The power level is asked for only while power is shown (R235). -/
theorem powerEvents_issues {i : Instr} {h : Nat} (hp : payloadSize i = some h) (s t : State) :
    ∀ x ∈ powerEvents s, Issues i s t x := by
  unfold powerEvents
  split
  · rename_i hpower
    simp [Issues, hpower, hp]
  · exact fun x hx => (List.not_mem_nil hx).elim

theorem PayloadEffect.issues {i : Instr} {s t : State} {es : List RadioEvent} {c : Byte} {b : Bytes}
    (h : PayloadEffect i s es c b) : ∀ x ∈ es, Issues i s t x := by
  obtain ⟨n, hp, ⟨-, -, -, rfl⟩ | ⟨-, -, -, rfl⟩ | ⟨-, ht, f, ok, rfl, -, -⟩⟩ := h
  · exact fun x hx => (List.not_mem_nil hx).elim
  · exact powerEvents_issues hp s t
  · intro x hx
    rcases List.mem_append.mp hx with hx | hx
    · exact powerEvents_issues hp s t x hx
    · simp only [List.mem_cons, List.not_mem_nil, or_false] at hx
      rcases hx with rfl | rfl <;> exact ht

/-- Every transaction of a command is one that the command issues. -/
theorem exec_issues {i : Instr} {s t : State} {es : List RadioEvent} (hexec : exec i s = .next t)
    (hlog : t.radioLog = s.radioLog ++ es) : ∀ x ∈ es, Issues i s t x := by
  obtain ⟨e, es', c, b, hafter, heffect⟩ := exec_next_cases hexec
  obtain rfl : es' = es := List.append_cancel_left (hafter.radioLog.symm.trans hlog)
  obtain rfl : t.eng = e := hafter.eng
  rcases heffect with heffect | ⟨-, hpayload⟩
  · exact heffect.issues
  · exact hpayload.issues

/-- Settles O18: `exec_issues`, transaction by transaction. -/
theorem radioTransactionsHaveTheirIssuers : Obligations.RadioTransactionsHaveTheirIssuers := by
  intro i s t es hexec hlog x hx
  have hissues := exec_issues hexec hlog x hx
  refine ⟨?_, ?_, ?_, ?_, ?_, ?_, ?_, ?_, ?_, ?_, ?_, ?_, ?_, ?_, ?_, ?_, ?_⟩
  all_goals
    intros
    subst x
    exact hissues

end Sys2Proof.Machine
end

section
/-! The obligations on what a command does not look at, as comparisons of two runs: no command but GETCFG looks at
CONFIGURED (10_state.md, R35), which is O16; reception looks at no identity (45_disassembler.md, R270–R285), which is O17.
The changed fields are set after the command instead of before it, and nothing else differs. -/

namespace Sys2Proof.Machine

/-! ### CONFIGURED (R35) -/

/-- The flag set before the command is as good as the flag set after it, except that BEGIN may have set it. -/
def IgnoresConfigured (i : Instr) (s : State) (b : Bool) : Prop :=
  ∃ t b', exec i s = .next t ∧ exec i (setConfigured b s) = .next (setConfigured b' t)

theorem afterPower_setConfigured (b : Bool) (s : State) :
    afterPower (setConfigured b s) = setConfigured b (afterPower s) := by
  unfold afterPower
  rw [setConfigured_showPower]
  split <;> rfl

theorem nextBool_setConfigured (b : Bool) (s : State) : nextBool (setConfigured b s) = nextBool s := rfl

/-- The four assembly commands look at the name, the power flag, the MAC and the channel index only. -/
theorem payload_ignoresConfigured {i : Instr} {h : Nat} (hp : payloadSize i = some h) (s : State) (b : Bool) :
    IgnoresConfigured i s b := by
  by_cases hb : budgetLeft s.eng h < 0
  · exact ⟨_, b, exec_over hp hb, exec_over (s := setConfigured b s) hp hb⟩
  by_cases ht : Transmits i
  · refine ⟨_, b, exec_advertised hp ht (Int.not_lt.mp hb), ?_⟩
    rw [exec_advertised (s := setConfigured b s) hp ht (Int.not_lt.mp hb), afterPower_setConfigured,
      nextBool_setConfigured]
    rfl
  · refine ⟨_, b, exec_assembled hp ht (Int.not_lt.mp hb), ?_⟩
    rw [exec_assembled (s := setConfigured b s) hp ht (Int.not_lt.mp hb), afterPower_setConfigured]
    rfl

theorem begin_ignoresConfigured (s : State) (b : Bool) : IgnoresConfigured .beginRadio s b := by
  cases h : nextBool s with
  | true => exact ⟨_, true, exec_begin_ready h, exec_begin_ready (s := setConfigured b s) h⟩
  | false => exact ⟨_, b, exec_begin_failed h, exec_begin_failed (s := setConfigured b s) h⟩

theorem poll_ignoresConfigured (s : State) (b : Bool) : IgnoresConfigured .poll s b := by
  cases h : nextBool s with
  | true => exact ⟨_, b, exec_poll_ready h rfl rfl, exec_poll_ready (s := setConfigured b s) h rfl rfl⟩
  | false => exact ⟨_, b, exec_poll_idle h, exec_poll_idle (s := setConfigured b s) h⟩

theorem exec_ignoresConfigured {i : Instr} (hi : i ≠ .getcfg) (s : State) (b : Bool) : IgnoresConfigured i s b := by
  cases i with
  | getcfg => exact absurd rfl hi
  | assemble | asmseq | adv | advseq => exact payload_ignoresConfigured rfl s b
  | beginRadio => exact begin_ignoresConfigured s b
  | poll => exact poll_ignoresConfigured s b
  | revb | revbuf | whiten | whitench | crc24 | clrname | hop | lenavail | read | decode => exact ⟨_, b, rfl, rfl⟩
  | chunk | setmac | setname | setpwr =>
    refine ⟨_, b, rfl, ?_⟩
    simp only [apply_ite (setConfigured b)]
    rfl

/-- Settles O16: the two runs differ in the flag alone. -/
theorem configuredIsOnlyReported : Obligations.ConfiguredIsOnlyReported := by
  intro i s b hi
  obtain ⟨t, b', hexec, hexec'⟩ := exec_ignoresConfigured hi s b
  exact ⟨t, _, hexec, hexec', rfl, rfl, rfl⟩

/-! ### Reception (R270–R285) -/

/-- The engine's own identity: MAC, name and power flag. -/
def setIdentity (m : Mac) (n : Option Bytes) (p : Bool) (s : State) : State := setMac m (setName n (setShowPower p s))

/-- POLL, READ and DECODE with another identity end where they end without, with that identity. -/
theorem exec_reception_setIdentity {i : Instr} (hi : i = .poll ∨ i = .read ∨ ∃ d, i = .decode d) (m : Mac)
    (n : Option Bytes) (p : Bool) (s : State) :
    ∃ t, exec i s = .next t ∧ exec i (setIdentity m n p s) = .next (setIdentity m n p t) := by
  obtain rfl | rfl | ⟨d, rfl⟩ := hi
  · cases h : nextBool s with
    | true => exact ⟨_, exec_poll_ready h rfl rfl, exec_poll_ready (s := setIdentity m n p s) h rfl rfl⟩
    | false => exact ⟨_, exec_poll_idle h, exec_poll_idle (s := setIdentity m n p s) h⟩
  · exact ⟨_, rfl, rfl⟩
  · exact ⟨_, rfl, rfl⟩

/-- Settles O17: the two runs differ in the identity alone. -/
theorem receptionIgnoresIdentity : Obligations.ReceptionIgnoresIdentity := by
  intro i s m n p hi
  obtain ⟨t, hexec, hexec'⟩ := exec_reception_setIdentity hi m n p s
  exact ⟨t, _, hexec, hexec', rfl, rfl, rfl⟩

end Sys2Proof.Machine
end
